-- ==== Sys2Proof/Word.lean ====
section
/-!
DEFINITION. The value types of the machine (00_scope.md rule R4, 10_state.md rules R20 to R28).
-/

namespace Sys2Proof

/-- A byte: register contents, timers, memory locations (8 bits). -/
abbrev Byte := BitVec 8

/-- The 16-bit instruction word, and the 16-bit registers I and pc. -/
abbrev Word := BitVec 16

/-- The index of a general register, V0 to VF (rule R20): a 4-bit field, never out of range. -/
abbrev Reg := Fin 16

/-- The index of a key, 0 to F (rule R29). -/
abbrev KeyIndex := Fin 16

/-- One row of the framebuffer: 64 one-bit pixels, bit x being column x (rule R28). -/
abbrev PixelRow := BitVec 64

/-- The framebuffer: 32 rows, row 0 at the top (rules R28, R152). -/
abbrev Framebuffer := Vector PixelRow 32

/-- The font atlas: 16 glyphs of 5 bytes, row r of digit d at index 5 d + r (rule R61). -/
abbrev Font := Vector Byte 80

/-- VF, V[15], which is also the flag register (rule R21). -/
abbrev flagReg : Reg := 15

end Sys2Proof
end

