-- ==== Sys2Proof/Decode.lean ====
section
/-!
DEFINITION. Decoding and encoding (30_encoding.md rules R70 to R76): total on any bytes, an unrecognised word
rejected by name.
-/

namespace Sys2Proof

/-- Why bytes are no instruction: fewer than two of them, or a word no row selects (rule R76). -/
inductive DecodeError where
  | truncated
  | unknownOpcode (w : Word)
  deriving DecidableEq, Repr

/-! ### Fields of a word (rule R71) -/

/-- The family, bits 15 to 12. -/
def fieldFamily (w : Word) : BitVec 4 := w.extractLsb' 12 4

/-- X, bits 11 to 8, a register index. -/
def fieldX (w : Word) : Reg := (w.extractLsb' 8 4).toFin

/-- Y, bits 7 to 4, a register index. -/
def fieldY (w : Word) : Reg := (w.extractLsb' 4 4).toFin

/-- N, bits 3 to 0. -/
def fieldN (w : Word) : BitVec 4 := w.extractLsb' 0 4

/-- NN, bits 7 to 0. -/
def fieldNN (w : Word) : Byte := w.extractLsb' 0 8

/-- NNN, bits 11 to 0. -/
def fieldNNN (w : Word) : BitVec 12 := w.extractLsb' 0 12

/-! ### The decoder -/

/-- Family 0 recognises the two words 00E0 and 00EE only (rules R74, R76). -/
def decodeFamily0 (w : Word) : Option Instr :=
  match w with
  | 0x00E0 => some .cls
  | 0x00EE => some .ret
  | _ => none

/-- Family 8: the function nibble is one of 0 to 7, E (rule R74). -/
def decodeFamily8 (w : Word) : Option Instr :=
  match fieldN w with
  | 0x0 => some (.ldReg (fieldX w) (fieldY w))
  | 0x1 => some (.orReg (fieldX w) (fieldY w))
  | 0x2 => some (.andReg (fieldX w) (fieldY w))
  | 0x3 => some (.xorReg (fieldX w) (fieldY w))
  | 0x4 => some (.addReg (fieldX w) (fieldY w))
  | 0x5 => some (.sub (fieldX w) (fieldY w))
  | 0x6 => some (.shr (fieldX w) (fieldY w))
  | 0x7 => some (.subn (fieldX w) (fieldY w))
  | 0xE => some (.shl (fieldX w) (fieldY w))
  | _ => none

/-- Family E: the low byte is 9E or A1 (rule R74). -/
def decodeFamilyE (w : Word) : Option Instr :=
  match fieldNN w with
  | 0x9E => some (.skp (fieldX w))
  | 0xA1 => some (.sknp (fieldX w))
  | _ => none

/-- Family F: the low byte is one of the nine of rule R75. -/
def decodeFamilyF (w : Word) : Option Instr :=
  match fieldNN w with
  | 0x07 => some (.ldVxDt (fieldX w))
  | 0x0A => some (.ldVxK (fieldX w))
  | 0x15 => some (.ldDtVx (fieldX w))
  | 0x18 => some (.ldStVx (fieldX w))
  | 0x1E => some (.addI (fieldX w))
  | 0x29 => some (.ldF (fieldX w))
  | 0x33 => some (.ldB (fieldX w))
  | 0x55 => some (.ldMemVx (fieldX w))
  | 0x65 => some (.ldVxMem (fieldX w))
  | _ => none

/-- The instruction a word stands for, `none` where no row of rule R75 selects it. The top nibble selects the
family (rule R71); fixed nibbles must match exactly (rule R74). -/
def decodeWord (w : Word) : Option Instr :=
  match fieldFamily w with
  | 0x0 => decodeFamily0 w
  | 0x1 => some (.jp (fieldNNN w))
  | 0x2 => some (.call (fieldNNN w))
  | 0x3 => some (.seImm (fieldX w) (fieldNN w))
  | 0x4 => some (.sneImm (fieldX w) (fieldNN w))
  | 0x5 => if fieldN w = 0 then some (.seReg (fieldX w) (fieldY w)) else none
  | 0x6 => some (.ldImm (fieldX w) (fieldNN w))
  | 0x7 => some (.addImm (fieldX w) (fieldNN w))
  | 0x8 => decodeFamily8 w
  | 0x9 => if fieldN w = 0 then some (.sneReg (fieldX w) (fieldY w)) else none
  | 0xA => some (.ldI (fieldNNN w))
  | 0xB => some (.jpV0 (fieldNNN w))
  | 0xC => some (.rnd (fieldX w) (fieldNN w))
  | 0xD => some (.drw (fieldX w) (fieldY w) (fieldN w))
  | 0xE => decodeFamilyE w
  | _ => decodeFamilyF w

/-- The word whose high byte lies at the lower address (rule R52). -/
def wordOfBytes (hi lo : Byte) : Word := hi ++ lo

/-- The high byte of a word, the one at the lower address (rule R52). -/
def highByte (w : Word) : Byte := w.extractLsb' 8 8

/-- The low byte of a word. -/
def lowByte (w : Word) : Byte := w.extractLsb' 0 8

/-- Decode the instruction at the head of a byte sequence: two bytes, big-endian (rules R52, R70). -/
def decode : List Byte → Except DecodeError (Instr × List Byte)
  | hi :: lo :: rest =>
    match decodeWord (wordOfBytes hi lo) with
    | some i => .ok (i, rest)
    | none => .error (.unknownOpcode (wordOfBytes hi lo))
  | _ => .error .truncated

/-! ### The encoder (formats of rule R72) -/

/-- Format A: family and NNN. -/
def formatA (f : BitVec 4) (nnn : BitVec 12) : Word := f ++ nnn

/-- Formats XI and XF: family, X and the low byte. -/
def formatXI (f : BitVec 4) (x : Reg) (nn : Byte) : Word := f ++ BitVec.ofFin (w := 4) x ++ nn

/-- Formats XY and XYN: family, X, Y and the low nibble. -/
def formatXY (f : BitVec 4) (x y : Reg) (n : BitVec 4) : Word :=
  f ++ BitVec.ofFin (w := 4) x ++ BitVec.ofFin (w := 4) y ++ n

/-- The word of an instruction (rule R75). -/
def encode : Instr → Word
  | .cls => 0x00E0
  | .ret => 0x00EE
  | .jp nnn => formatA 0x1 nnn
  | .call nnn => formatA 0x2 nnn
  | .seImm x nn => formatXI 0x3 x nn
  | .sneImm x nn => formatXI 0x4 x nn
  | .seReg x y => formatXY 0x5 x y 0x0
  | .ldImm x nn => formatXI 0x6 x nn
  | .addImm x nn => formatXI 0x7 x nn
  | .ldReg x y => formatXY 0x8 x y 0x0
  | .orReg x y => formatXY 0x8 x y 0x1
  | .andReg x y => formatXY 0x8 x y 0x2
  | .xorReg x y => formatXY 0x8 x y 0x3
  | .addReg x y => formatXY 0x8 x y 0x4
  | .sub x y => formatXY 0x8 x y 0x5
  | .shr x y => formatXY 0x8 x y 0x6
  | .subn x y => formatXY 0x8 x y 0x7
  | .shl x y => formatXY 0x8 x y 0xE
  | .sneReg x y => formatXY 0x9 x y 0x0
  | .ldI nnn => formatA 0xA nnn
  | .jpV0 nnn => formatA 0xB nnn
  | .rnd x nn => formatXI 0xC x nn
  | .drw x y n => formatXY 0xD x y n
  | .skp x => formatXI 0xE x 0x9E
  | .sknp x => formatXI 0xE x 0xA1
  | .ldVxDt x => formatXI 0xF x 0x07
  | .ldVxK x => formatXI 0xF x 0x0A
  | .ldDtVx x => formatXI 0xF x 0x15
  | .ldStVx x => formatXI 0xF x 0x18
  | .addI x => formatXI 0xF x 0x1E
  | .ldF x => formatXI 0xF x 0x29
  | .ldB x => formatXI 0xF x 0x33
  | .ldMemVx x => formatXI 0xF x 0x55
  | .ldVxMem x => formatXI 0xF x 0x65

/-- The two bytes of an instruction, in memory order (rule R52). -/
def encodeBytes (i : Instr) : List Byte := [highByte (encode i), lowByte (encode i)]

/-! ### The opcode table's numbering of bits -/

/-- The word of an instruction whose low `nbits` bits are those of `w` and whose other bits are 0. -/
def tableWord (nbits w : Nat) : Word := BitVec.ofNat 16 (w % 2 ^ nbits)

/-- The instruction the decoder reads from the bits `w`, numbered as spec/opcode_table.json numbers them. -/
def decodeTableWord (nbits w : Nat) : Option Instr :=
  match decode [highByte (tableWord nbits w), lowByte (tableWord nbits w)] with
  | .ok (i, _) => some i
  | .error _ => none

end Sys2Proof
end

