-- ==== Sys2Proof/Config.lean ====
section
/-!
DEFINITION. What the spec fixes for this hardware (00_scope.md rule R4), and the one free value.
-/

namespace Sys2Proof.Config

/-- MEM_BYTES: addresses 0x000 to 0xFFF. -/
abbrev memBytes : Nat := 4096

/-- PROG_BASE, where `Load` puts the image, and RESET_PC (rules R4, R34). -/
abbrev progBase : Nat := 0x200

/-- PROG_MAX: 4096 - 0x200 bytes (rules R4, R185). -/
abbrev progMax : Nat := 3584

/-- FONT_BYTES: the font atlas fills 0x000 to 0x04F (rules R4, R51). FONT itself is open: it is the argument of
`State.resetWith`, carried by `Memory.font`. -/
abbrev fontBytes : Nat := 80

/-- STACK_DEPTH (rules R4, R24). -/
abbrev stackDepth : Nat := 16

/-- FREE VALUE (log entry 1): the random byte the (k+1)-th executed CXNN draws. Rule R9 and decision D19:
any 8-bit value, one fresh value per executed CXNN. No body, so nothing can be proved of it and every claim holds
for every byte. -/
opaque rnd : Nat → Byte

end Sys2Proof.Config
end

