-- ==== Sys2Proof/Machine/Font.lean ====
section
/-!
DEFINITION. The default of the parameter FONT (00_scope.md rule R4, 20_memory.md rule R61), used where a machine is
given no other font.
-/

namespace Sys2Proof.Machine

/-- Glyphs 0 to 7 of the default font (rule R61). PRESUMED (log entry 2). -/
def fontLow : Vector Byte 40 :=
  #v[0xF0, 0x90, 0x90, 0x90, 0xF0,  0x20, 0x60, 0x20, 0x20, 0x70,
     0xF0, 0x10, 0xF0, 0x80, 0xF0,  0xF0, 0x10, 0xF0, 0x10, 0xF0,
     0x90, 0x90, 0xF0, 0x10, 0x10,  0xF0, 0x80, 0xF0, 0x10, 0xF0,
     0xF0, 0x80, 0xF0, 0x90, 0xF0,  0xF0, 0x10, 0x20, 0x40, 0x40]

/-- Glyphs 8 to F of the default font (rule R61). PRESUMED (log entry 2). -/
def fontHigh : Vector Byte 40 :=
  #v[0xF0, 0x90, 0xF0, 0x90, 0xF0,  0xF0, 0x90, 0xF0, 0x10, 0xF0,
     0xF0, 0x90, 0xF0, 0x90, 0x90,  0xE0, 0x90, 0xE0, 0x90, 0xE0,
     0xF0, 0x80, 0x80, 0x80, 0xF0,  0xE0, 0x90, 0x90, 0x90, 0xE0,
     0xF0, 0x80, 0xF0, 0x80, 0xF0,  0xF0, 0x80, 0xF0, 0x80, 0x80]

/-- FONT[0..79] at its default, "to be used when nothing else is given" (rule R61). -/
def defaultFont : Font := fontLow ++ fontHigh

end Sys2Proof.Machine
end

