-- ==== Sys2Proof/Machine/State.lean ====
section
/-!
DEFINITION. The state of the machine (10_state.md), why a step can stop, and the state after reset.
-/

namespace Sys2Proof.Machine

/-- Memory: the parameter FONT of the machine (rules R4, R61), which no event changes, and the (address, byte) pairs
that differ from the reset contents, addresses strictly rising. What an unlisted address reads as is
`Memory.resetByte` of Machine/Memory.lean. -/
structure Memory where
  /-- PARAMETER: the 80 bytes that `Reset` writes at 0x000 to 0x04F. -/
  font : Font
  /-- The bytes that differ from the reset contents. -/
  cells : List Host.Cell
  deriving DecidableEq, Repr

/-- What an event that completes returns to its caller (rule R10): `ok`, `waitingForKey` (rule R163), or the
recoverable error `unknownOpcode` with the address and the word (rules R180, R184; payload D24). -/
inductive Report where
  | ok
  | waitingForKey
  | unknownOpcode (addr opcode : Word)
  deriving DecidableEq, Repr

/-- The fatal errors (rule R180): the event changes no state at all and returns the error, so stopping with the
reason alone loses nothing (log entry 6). -/
inductive Fault where
  /-- Raised by the fetch of a step when pc0 + 1 > 0xFFF (rule R181). Safe. -/
  | invalidAddress (addr : Word)
  /-- Raised by 2NNN when sp = 16 (rule R182), with the address of the call. Safe. -/
  | stackOverflow (addr : Word)
  /-- Raised by 00EE when sp = 0 (rule R183), with the address of the return. Safe. -/
  | stackUnderflow (addr : Word)
  /-- Raised by the event `Load`, never by a step, when the image has more than 3584 bytes (rule R185). Safe. -/
  | programTooLarge (len : Nat)
  deriving DecidableEq, Repr

/-- Why an instruction has no meaning in the model. No instruction of this model is refused. -/
inductive Refusal where
  /-- An instruction `exec` rejects by name. Raised by no arm. Safe. -/
  | notModelled (mnemonic : String)
  deriving DecidableEq, Repr

/-- The machine state: the pieces of 10_state.md rules R20 to R30 and, in `mem`, the parameter FONT they
are read with; nothing else. By rule R32 it holds no random
source, no program image, no error latch or halted bit, no key-wait latch and no clock. -/
structure MachineState where
  /-- V[0] to V[15] (rules R20, R21). -/
  v : Vector Byte 16
  /-- The index register I (rule R22). -/
  i : Word
  /-- The program counter (rule R23). -/
  pc : Word
  /-- The sixteen return addresses (rule R24). -/
  stack : Vector Word 16
  /-- The stack pointer, 0 to 16 (rule R25). -/
  sp : Fin 17
  /-- The delay timer DT (rule R26). -/
  dt : Byte
  /-- The sound timer ST (rule R27). -/
  st : Byte
  /-- The framebuffer (rule R28). -/
  fb : Framebuffer
  /-- The key states, true meaning pressed (rule R29). -/
  keys : Vector Bool 16
  /-- The 4096 bytes of memory (rule R30), with the parameter FONT. -/
  mem : Memory
  deriving DecidableEq, Repr

/-- What `step` maps to its like: the machine state, and beside it two things the HOST holds, which are no machine
state (rule R32) and no rule's field: its place in the random source, and the outcome the last call returned to it
(rule R198: "which the host has in hand"). They stand here because the host's form of a step takes and returns one
value (log entries 1 and 4). That no event but CXNN's draw depends on them is the statement
StepDependsOnMachineState. -/
structure State extends MachineState where
  /-- HOST'S SIDE (rule R32 (a)): how many random bytes CXNN has drawn; the next one is `Config.rnd draws`. -/
  draws : Nat
  /-- HOST'S SIDE (rules R10, R32 (c), (d)): what the last `Step` or `Load` returned to its caller. No event reads
  it. -/
  report : Report
  deriving DecidableEq, Repr

/-- What an event answers. -/
abbrev Result := Host.Outcome State Fault Refusal

/-- The state after `Reset` of the machine whose FONT is `font`, the named argument of rule R4 (rules R34, R210).
Memory lists nothing: it holds its reset contents. -/
def State.resetWith (font : Font) : State where
  v := Vector.replicate 16 0
  i := 0
  pc := 0x200
  stack := Vector.replicate 16 0
  sp := 0
  dt := 0
  st := 0
  fb := Vector.replicate 32 0
  keys := Vector.replicate 16 false
  mem := { font := font, cells := [] }
  draws := 0
  report := .ok

/-- The state after `Reset` where FONT is given no other value than its default (rule R61). -/
def State.reset : State := State.resetWith defaultFont

end Sys2Proof.Machine
end

