-- ==== Sys2Proof/Machine/Memory.lean ====
section
/-!
DEFINITION. Memory: its reset contents, reading and writing a byte, its canonical form (20_memory.md).
-/

namespace Sys2Proof.Machine

/-- The reset contents: FONT at 0x000 to 0x04F, 0x00 elsewhere (rule R34). It is what an address reads as that
no event has written since reset. -/
def Memory.resetByte (m : Memory) (a : Nat) : Byte := if h : a < Config.fontBytes then m.font[a] else 0

/-- The byte listed at an address, if one is. -/
def lookupCell : List Host.Cell → Nat → Option Byte
  | [], _ => none
  | c :: l, a => if c.1 = a then some c.2 else lookupCell l a

/-- List the byte `b` at address `a`, replacing the byte listed there. -/
def insertCell : List Host.Cell → Nat → Byte → List Host.Cell
  | [], a, b => [(a, b)]
  | c :: l, a, b =>
    if a < c.1 then (a, b) :: c :: l
    else if a = c.1 then (a, b) :: l
    else c :: insertCell l a b

/-- Unlist address `a`. -/
def eraseCell (l : List Host.Cell) (a : Nat) : List Host.Cell := l.filter (fun c => c.1 != a)

/-- MemRead(a, 1): the last byte written to `a`, or its reset contents (rules R34, R56). -/
def Memory.read (m : Memory) (a : Nat) : Byte := (lookupCell m.cells a).getD (m.resetByte a)

/-- MemWrite(a, 1, b). Writing the reset contents of `a` unlists it, so that memories that read alike are equal. -/
def Memory.write (m : Memory) (a : Nat) (b : Byte) : Memory :=
  { m with cells := if b = m.resetByte a then eraseCell m.cells a else insertCell m.cells a b }

/-- The canonical form: addresses strictly rising, all inside memory, none listed at its reset contents. -/
abbrev Memory.wf (m : Memory) : Prop :=
  m.cells.Pairwise (fun c d => c.1 < d.1) ∧ ∀ c ∈ m.cells, c.1 < Config.memBytes ∧ c.2 ≠ m.resetByte c.1

/-- MemRead(a, 2): two bytes, high byte at the lower address (rule R52). -/
def Memory.readWord (m : Memory) (a : Nat) : Word := m.read a ++ m.read (a + 1)

/-- Store bytes at rising addresses from `a`, not masked (rule R197: `Load`). -/
def Memory.writeBytes : Memory → Nat → List Byte → Memory
  | m, _, [] => m
  | m, a, b :: bs => Memory.writeBytes (m.write a b) (a + 1) bs

end Sys2Proof.Machine
end

