-- ==== Sys2Proof/Machine/Ops.lean ====
section
/-!
DEFINITION. The named operations over the state: registers, the end of a step, the stack, fetch, and the errors.
-/

namespace Sys2Proof.Machine

/-! ### Reading -/

/-- V[r] (rule R20). -/
def State.reg (s : State) (r : Reg) : Byte := s.v[r]

/-- FB[y][x], the accessor `pixel(x, y)` of rule R195: x the column, y the row. -/
def Framebuffer.pixel (fb : Framebuffer) (x : Fin 64) (y : Fin 32) : Bool := fb[y].getLsbD x.val

/-- The host's framebuffer read accessor (rule R195). -/
def State.pixel (s : State) (x : Fin 64) (y : Fin 32) : Bool := Framebuffer.pixel s.fb x y

/-- KEY[k] (rule R29). -/
def State.key (s : State) (k : KeyIndex) : Bool := s.keys[k]

/-! ### Writing one piece of state -/

/-- V[r] <- b. No register is hardwired (rule R20). -/
def State.setReg (s : State) (r : Reg) (b : Byte) : State := { s with v := s.v.set r b }

/-- I <- w. -/
def State.setI (s : State) (w : Word) : State := { s with i := w }

/-- DT <- b. -/
def State.setDt (s : State) (b : Byte) : State := { s with dt := b }

/-- ST <- b. -/
def State.setSt (s : State) (b : Byte) : State := { s with st := b }

/-- Replace the framebuffer. -/
def State.setFb (s : State) (fb : Framebuffer) : State := { s with fb := fb }

/-- Replace memory. -/
def State.setMem (s : State) (m : Memory) : State := { s with mem := m }

/-- Consume one random byte (rule R160: one fresh value per executed CXNN). -/
def State.drawn (s : State) : State := { s with draws := s.draws + 1 }

/-! ### The end of a step (rule R7) -/

/-- The step ends with outcome Ok and pc <- t. -/
def State.finish (s : State) (t : Word) : Result := .next { s with pc := t, report := .ok }

/-- The default advance, pc <- pc0 + 2. -/
def State.advance (s : State) : Result := s.finish (s.pc + 2)

/-- A conditional skip: pc <- pc0 + 4 when the condition holds, else pc0 + 2 (rules R7, R114). -/
def State.skipIf (s : State) (c : Bool) : Result := s.finish (if c then s.pc + 4 else s.pc + 2)

/-- The step ends with outcome WaitingForKey and no state change; pc stays (rule R163). -/
def State.keepWaiting (s : State) : Result := .next { s with report := .waitingForKey }

/-! ### Errors (60_exceptions.md) -/

/-- A fatal error: the step changes no state and reports the error (rules R181 to R183, R187, R188). There is no
trap entry on this machine, so this and `unknownOpcode` are all there is to taking an exception. -/
def State.raise (_s : State) (f : Fault) : Result := .fault f

/-- UnknownOpcode: pc <- pc0 + 2, nothing else changes, the error is reported and execution can continue
(rules R76, R184). -/
def State.unknownOpcode (s : State) (w : Word) : Result :=
  .next { s with pc := s.pc + 2, report := .unknownOpcode s.pc w }

/-! ### The stack (rules R24, R25) -/

/-- Push a return address: stack[sp] <- t, then sp + 1. `h` is the overflow check the caller has made. -/
def State.push (s : State) (t : Word) (h : s.sp.val < Config.stackDepth) : State :=
  { s with stack := s.stack.set s.sp.val t h, sp := ⟨s.sp.val + 1, Nat.succ_lt_succ h⟩ }

/-- The entry a pop reads, stack[sp - 1]. -/
def State.top (s : State) : Word :=
  s.stack[s.sp.val - 1]'(by have := s.sp.isLt; omega)

/-- Pop: sp <- sp - 1; the entry keeps its value. -/
def State.pop (s : State) : State :=
  { s with sp := ⟨s.sp.val - 1, Nat.lt_of_le_of_lt (Nat.sub_le _ _) s.sp.isLt⟩ }

/-! ### Fetch (rules R52, R53) -/

/-- The word at pc, or nothing where pc + 1 > 0xFFF. The comparison is on the unbounded sum. -/
def State.fetch (s : State) : Option Word :=
  if s.pc.toNat + 1 > 0xFFF then none else some (s.mem.readWord s.pc.toNat)

/-- Store a word where the next fetch reads it. -/
def State.placeWord (s : State) (w : Word) : State :=
  if s.pc.toNat + 1 > 0xFFF then s
  else s.setMem (s.mem.writeBytes s.pc.toNat [highByte w, lowByte w])

/-- The key-wait accessor of rule R198: the next step would wait for a key. -/
def State.waiting (s : State) : Bool :=
  decide (s.pc.toNat + 1 ≤ 0xFFF) && (s.mem.readWord s.pc.toNat &&& 0xF0FF == 0xF00A) &&
    (List.finRange 16).all (fun k => !s.key k)

/-- The sound output of rule R196: the tone sounds while ST is nonzero. -/
def State.soundOn (s : State) : Bool := s.st != 0

/-- The end of a run as rule R217 offers it: the instruction at pc is a jump to itself. -/
def State.quiescent (s : State) : Bool :=
  match s.fetch with
  | some w => decodeWord w == some (.jp (s.pc.setWidth 12))
  | none => false

end Sys2Proof.Machine
end

