-- ==== Sys2Proof/Machine/Operands.lean ====
section
/-!
DEFINITION. The operand forms: immediates, the data address, the key an operand selects, register blocks
(30_encoding.md rule R73, 20_memory.md rule R54).
-/

namespace Sys2Proof.Machine

/-- NNN as a 16-bit address, the top four bits 0 (rule R73). -/
def addrOf (nnn : BitVec 12) : Word := nnn.setWidth 16

/-- ea(k) = (I + k) & 0xFFF, on the unbounded sum (rule R54). -/
def ea (i : Word) (k : Nat) : Nat := (i.toNat + k) % Config.memBytes

/-- Store bytes at ea(k), ea(k + 1), ...: each address masked on its own (rules R54, R143, R144). -/
def Memory.writeBlock (m : Memory) (i : Word) : Nat → List Byte → Memory
  | _, [] => m
  | k, b :: bs => Memory.writeBlock (m.write (ea i k) b) i (k + 1) bs

/-- V[0] to V[X], X + 1 bytes (rule R144). -/
def State.regBlock (s : State) (x : Reg) : List Byte :=
  ((List.finRange 16).filter (fun r => r ≤ x)).map s.reg

/-- V[k] <- MEM[ea(k)] for k from 0 to X; registers above X are unchanged (rule R145). -/
def State.loadRegs (s : State) (x : Reg) : State :=
  { s with v := Vector.ofFn (fun r => if r ≤ x then s.mem.read (ea s.i r.val) else s.reg r) }

/-- The key EX9E and EXA1 test: the low four bits of V[X] (rules R161, R162). -/
def State.keyOf (s : State) (x : Reg) : KeyIndex := ((s.reg x).setWidth 4).toFin

/-- The least pressed key, if any key is pressed (rule R163, decision D12). -/
def State.lowestKey (s : State) : Option KeyIndex := (List.finRange 16).find? s.key

/-- A key index as a byte, 0x00 to 0x0F (rule R163). -/
def keyByte (k : KeyIndex) : Byte := BitVec.ofNat 8 k.val

/-- The three decimal digits of a byte: hundreds, tens, ones (rule R143). -/
def bcdDigits (b : Byte) : List Byte :=
  [BitVec.ofNat 8 (b.toNat / 100), BitVec.ofNat 8 (b.toNat / 10 % 10), BitVec.ofNat 8 (b.toNat % 10)]

/-- The address of the glyph of a byte, 5 times the whole 8-bit value (rule R142, decision D14). -/
def glyphAddr (b : Byte) : Word := BitVec.ofNat 16 (5 * b.toNat)

end Sys2Proof.Machine
end

