-- ==== Sys2Proof/Machine/Flags.lean ====
section
/-!
DEFINITION. What VF receives as a flag (10_state.md rule R21), and the order of its write (42_alu.md rule R131).
-/

namespace Sys2Proof.Machine

/-- A flag is 0x00 or 0x01 in the whole register (rule R21). -/
def flagByte (c : Bool) : Byte := if c then 1 else 0

/-- Carry out of an 8-bit sum: 1 if a + b > 255 (rule R126). -/
def carryFlag (a b : Byte) : Byte := flagByte (decide (a.toNat + b.toNat > 255))

/-- Not borrow of a - b: 0 if a < b, else 1 (rules R127, R129). -/
def notBorrowFlag (a b : Byte) : Byte := flagByte (!decide (a.toNat < b.toNat))

/-- The bit a right shift loses, bit 0 (rule R128). -/
def lowBitFlag (a : Byte) : Byte := a &&& 1

/-- The bit a left shift loses, bit 7 (rule R130). -/
def highBitFlag (a : Byte) : Byte := (a >>> 7) &&& 1

/-- Index overflow: 1 if I + V[X] > 0xFFF (rule R141). -/
def indexFlag (i : Word) (a : Byte) : Byte := flagByte (decide (i.toNat + a.toNat > 0xFFF))

/-- Write the flag to VF. Every instruction with a flag writes it last, so it wins over a result written to VF
(rule R131, decision D10). -/
def State.setFlag (s : State) (f : Byte) : State := s.setReg flagReg f

/-- The end of an arithmetic instruction with a flag: the result to V[X], then the flag to VF, then the default
advance (rule R131). -/
def State.resultAndFlag (s : State) (x : Reg) (result flag : Byte) : Result :=
  ((s.setReg x result).setFlag flag).advance

end Sys2Proof.Machine
end

