-- ==== Sys2Proof/Machine/Alu.lean ====
section
/-!
DEFINITION. Register load, arithmetic, logic and shifts: 6XNN, 7XNN and family 8 (42_alu.md). Operands are the
values at the start of the step; the flag is written last (rule R131).
-/

namespace Sys2Proof.Machine

/-- 6XNN (rule R120): V[X] <- NN. -/
def execLdImm (x : Reg) (nn : Byte) (s : State) : Result := (s.setReg x nn).advance

/-- 7XNN (rule R121): V[X] <- (V[X] + NN) mod 256, no flag. -/
def execAddImm (x : Reg) (nn : Byte) (s : State) : Result := (s.setReg x (s.reg x + nn)).advance

/-- 8XY0 (rule R122): V[X] <- V[Y]. -/
def execLdReg (x y : Reg) (s : State) : Result := (s.setReg x (s.reg y)).advance

/-- 8XY1 (rule R123): V[X] <- V[X] | V[Y]; VF is left alone (decision D11). -/
def execOrReg (x y : Reg) (s : State) : Result := (s.setReg x (s.reg x ||| s.reg y)).advance

/-- 8XY2 (rule R124): V[X] <- V[X] & V[Y]; VF is left alone (decision D11). -/
def execAndReg (x y : Reg) (s : State) : Result := (s.setReg x (s.reg x &&& s.reg y)).advance

/-- 8XY3 (rule R125): V[X] <- V[X] ^ V[Y]; VF is left alone (decision D11). -/
def execXorReg (x y : Reg) (s : State) : Result := (s.setReg x (s.reg x ^^^ s.reg y)).advance

/-- 8XY4 (rule R126): the sum mod 256, VF = carry. -/
def execAddReg (x y : Reg) (s : State) : Result :=
  s.resultAndFlag x (s.reg x + s.reg y) (carryFlag (s.reg x) (s.reg y))

/-- 8XY5 (rule R127): V[X] - V[Y] mod 256, VF = not borrow. -/
def execSub (x y : Reg) (s : State) : Result :=
  s.resultAndFlag x (s.reg x - s.reg y) (notBorrowFlag (s.reg x) (s.reg y))

/-- 8XY6 (rule R128): V[X] >> 1, VF = the bit lost; Y is ignored. -/
def execShr (x _y : Reg) (s : State) : Result :=
  s.resultAndFlag x (s.reg x >>> 1) (lowBitFlag (s.reg x))

/-- 8XY7 (rule R129): V[Y] - V[X] mod 256, VF = not borrow. -/
def execSubn (x y : Reg) (s : State) : Result :=
  s.resultAndFlag x (s.reg y - s.reg x) (notBorrowFlag (s.reg y) (s.reg x))

/-- 8XYE (rule R130): V[X] << 1 mod 256, VF = the bit lost; Y is ignored. -/
def execShl (x _y : Reg) (s : State) : Result :=
  s.resultAndFlag x (s.reg x <<< 1) (highBitFlag (s.reg x))

end Sys2Proof.Machine
end

