-- ==== Sys2Proof/Machine/Display.lean ====
section
/-!
DEFINITION. The framebuffer: 00E0 and DXYN (44_display.md). The loops are those of rule R151.
-/

namespace Sys2Proof.Machine

/-- The framebuffer with every pixel 0 (rule R150). -/
def Framebuffer.clear : Framebuffer := Vector.replicate 32 0

/-- FB[y][x] <- FB[y][x] ^ 1. -/
def Framebuffer.toggle (fb : Framebuffer) (x : Fin 64) (y : Fin 32) : Framebuffer :=
  fb.set y (fb[y] ^^^ BitVec.twoPow 64 x.val)

/-- A sprite being drawn: the framebuffer so far and whether a pixel has collided. -/
abbrev Canvas := Framebuffer × Bool

/-- One 1 bit of a sprite: note a collision if the pixel is 1, then invert the pixel (rule R151). -/
def Canvas.plot (c : Canvas) (x : Fin 64) (y : Fin 32) : Canvas :=
  (Framebuffer.toggle c.1 x y, c.2 || Framebuffer.pixel c.1 x y)

/-- Column x0 + c, wrapped: (x0 + c) mod 64. -/
def wrapColumn (n : Nat) : Fin 64 := ⟨n % 64, Nat.mod_lt _ (by decide)⟩

/-- Row y0 + r, wrapped: (y0 + r) mod 32 (decision D15). -/
def wrapRow (n : Nat) : Fin 32 := ⟨n % 32, Nat.mod_lt _ (by decide)⟩

/-- Bit 7 - c of a sprite byte is the pixel of column c: bit 7 is the leftmost (rule R152, decision D16). -/
def spriteBit (b : Byte) (c : Nat) : Bool := b.getLsbD (7 - c)

/-- One row of a sprite: its 8 columns from x0 (rule R151). -/
def Canvas.drawByte (c : Canvas) (x0 : Nat) (y : Fin 32) (b : Byte) : Canvas :=
  (List.range 8).foldl
    (fun acc k => if spriteBit b k then Canvas.plot acc (wrapColumn (x0 + k)) y else acc) c

/-- The `n` rows of a sprite read at I, drawn at (x0, y0) (rule R151). -/
def drawSprite (m : Memory) (i : Word) (n : Nat) (x0 y0 : Nat) (fb : Framebuffer) : Canvas :=
  (List.range n).foldl
    (fun acc r => Canvas.drawByte acc x0 (wrapRow (y0 + r)) (m.read (ea i r))) (fb, false)

/-- 00E0 (rule R150): every pixel 0; VF is not written. -/
def execCls (s : State) : Result := (s.setFb Framebuffer.clear).advance

/-- DXYN (rule R151): the coordinates are read before VF is written; VF = collision, always written. -/
def execDrw (x y : Reg) (n : BitVec 4) (s : State) : Result :=
  let c := drawSprite s.mem s.i n.toNat ((s.reg x).toNat % 64) ((s.reg y).toNat % 32) s.fb
  ((s.setFb c.1).setFlag (flagByte c.2)).advance

end Sys2Proof.Machine
end

