-- ==== Sys2Proof/Machine/Flow.lean ====
section
/-!
DEFINITION. Control transfer: 00EE, 1NNN, 2NNN, BNNN (40_flow.md).
-/

namespace Sys2Proof.Machine

/-- 00EE (rule R100): StackUnderflow when sp = 0; else pop, and pc is the popped value exactly. -/
def execRet (s : State) : Result :=
  if s.sp = 0 then s.raise (.stackUnderflow s.pc) else s.pop.finish s.top

/-- 1NNN (rule R101): pc <- NNN. -/
def execJp (nnn : BitVec 12) (s : State) : Result := s.finish (addrOf nnn)

/-- 2NNN (rule R102): StackOverflow when sp = 16; else push pc0 + 2 (decision D6), and pc <- NNN. -/
def execCall (nnn : BitVec 12) (s : State) : Result :=
  if h : s.sp.val < Config.stackDepth then (s.push (s.pc + 2) h).finish (addrOf nnn)
  else s.raise (.stackOverflow s.pc)

/-- BNNN (rule R103): pc <- NNN + V[0], the 16-bit sum, not masked (decision D4). -/
def execJpV0 (nnn : BitVec 12) (s : State) : Result :=
  s.finish (addrOf nnn + (s.reg 0).setWidth 16)

end Sys2Proof.Machine
end

