-- ==== Sys2Proof/Machine/IndexMemory.lean ====
section
/-!
DEFINITION. The index register and memory transfer: ANNN, FX1E, FX29, FX33, FX55, FX65 (43_index_memory.md).
-/

namespace Sys2Proof.Machine

/-- ANNN (rule R140): I <- NNN. -/
def execLdI (nnn : BitVec 12) (s : State) : Result := (s.setI (addrOf nnn)).advance

/-- FX1E (rule R141): I <- (I + V[X]) mod 4096; VF = 1 if the sum exceeds 0xFFF, written last. -/
def execAddI (x : Reg) (s : State) : Result :=
  ((s.setI (BitVec.ofNat 16 (ea s.i (s.reg x).toNat))).setFlag (indexFlag s.i (s.reg x))).advance

/-- FX29 (rule R142): I <- 5 * V[X]. -/
def execLdF (x : Reg) (s : State) : Result := (s.setI (glyphAddr (s.reg x))).advance

/-- FX33 (rule R143): the three decimal digits of V[X] to ea(0), ea(1), ea(2). -/
def execLdB (x : Reg) (s : State) : Result :=
  (s.setMem (s.mem.writeBlock s.i 0 (bcdDigits (s.reg x)))).advance

/-- FX55 (rule R144): V[0] to V[X] to ea(0) .. ea(X); I unchanged. -/
def execLdMemVx (x : Reg) (s : State) : Result :=
  (s.setMem (s.mem.writeBlock s.i 0 (s.regBlock x))).advance

/-- FX65 (rule R145): V[0] to V[X] from ea(0) .. ea(X); I unchanged. -/
def execLdVxMem (x : Reg) (s : State) : Result := (s.loadRegs x).advance

end Sys2Proof.Machine
end

