-- ==== Sys2Proof/Machine/IoTimers.lean ====
section
/-!
DEFINITION. Random, keypad and timer instructions: CXNN, EX9E, EXA1, FX0A, FX07, FX15, FX18
(45_io_timers_random.md).
-/

namespace Sys2Proof.Machine

/-- The effect of CXNN when the random input of the step is `r` (rule R160). -/
def rndWith (r : Byte) (x : Reg) (nn : Byte) (s : State) : Result := (s.drawn.setReg x (r &&& nn)).advance

/-- CXNN (rule R160): V[X] <- rnd & NN, rnd a fresh free value (log entry 1). -/
def execRnd (x : Reg) (nn : Byte) (s : State) : Result := rndWith (Config.rnd s.draws) x nn s

/-- EX9E (rule R161): skip if the key V[X] & 0xF is pressed. -/
def execSkp (x : Reg) (s : State) : Result := s.skipIf (s.key (s.keyOf x))

/-- EXA1 (rule R162): skip if the key V[X] & 0xF is not pressed. -/
def execSknp (x : Reg) (s : State) : Result := s.skipIf (!s.key (s.keyOf x))

/-- FX0A (rule R163): with no key pressed, WaitingForKey and no state change; else V[X] <- the least pressed
key (decision D12). -/
def execLdVxK (x : Reg) (s : State) : Result :=
  match s.lowestKey with
  | none => s.keepWaiting
  | some k => (s.setReg x (keyByte k)).advance

/-- FX07 (rule R164): V[X] <- DT. -/
def execLdVxDt (x : Reg) (s : State) : Result := (s.setReg x s.dt).advance

/-- FX15 (rule R165): DT <- V[X]. -/
def execLdDtVx (x : Reg) (s : State) : Result := (s.setDt (s.reg x)).advance

/-- FX18 (rule R166): ST <- V[X]. -/
def execLdStVx (x : Reg) (s : State) : Result := (s.setSt (s.reg x)).advance

end Sys2Proof.Machine
end

