-- ==== Sys2Proof/Machine/Skip.lean ====
section
/-!
DEFINITION. Conditional skips on registers: 3XNN, 4XNN, 5XY0, 9XY0 (41_skip.md).
-/

namespace Sys2Proof.Machine

/-- 3XNN (rule R110): skip if V[X] = NN. -/
def execSeImm (x : Reg) (nn : Byte) (s : State) : Result := s.skipIf (s.reg x == nn)

/-- 4XNN (rule R111): skip if V[X] differs from NN. -/
def execSneImm (x : Reg) (nn : Byte) (s : State) : Result := s.skipIf (s.reg x != nn)

/-- 5XY0 (rule R112): skip if V[X] = V[Y]. -/
def execSeReg (x y : Reg) (s : State) : Result := s.skipIf (s.reg x == s.reg y)

/-- 9XY0 (rule R113): skip if V[X] differs from V[Y]. -/
def execSneReg (x y : Reg) (s : State) : Result := s.skipIf (s.reg x != s.reg y)

end Sys2Proof.Machine
end

