-- ==== Sys2Proof/Machine/Step.lean ====
section
/-!
DEFINITION. The event `Step`: one fetch-decode-execute cycle (00_scope.md rule R7).
-/

namespace Sys2Proof.Machine

/-- `Step` (rule R7), its checks in the order of rule R186: the fetch bound, then decode, then the instruction's
own. -/
def step (s : State) : Host.Outcome State Fault Refusal :=
  match s.fetch with
  | none => s.raise (.invalidAddress s.pc)
  | some w =>
    match decodeWord w with
    | none => s.unknownOpcode w
    | some i => exec i s

/-- The state with the instruction of the opcode table's bits `w` stored where `step` fetches next: two bytes at
pc, high byte first (rule R52). -/
def State.withFetchWord (s : State) (nbits w : Nat) : State := s.placeWord (tableWord nbits w)

end Sys2Proof.Machine
end

