-- ==== Sys2Proof/WellFormed.lean ====
section
/-!
DEFINITION. Which words are instructions, as rule R75's match and mask columns say it, written apart from the
decoder; and which program images `Load` takes. A term of `Instr` needs no check of its own: its fields have
exactly the range of their encoding fields (rules R20, R71).
-/

namespace Sys2Proof

/-- The match and mask of one row of rule R75. -/
structure OpcodeRow where
  pattern : Word
  mask : Word
  deriving DecidableEq, Repr

/-- A word selects a row when its masked bits equal the row's pattern (rule R74). -/
def OpcodeRow.selects (r : OpcodeRow) (w : Word) : Bool := w &&& r.mask == r.pattern

/-- The row of rule R75 that an instruction belongs to. -/
def Instr.row : Instr → OpcodeRow
  | .cls => ⟨0x00E0, 0xFFFF⟩
  | .ret => ⟨0x00EE, 0xFFFF⟩
  | .jp _ => ⟨0x1000, 0xF000⟩
  | .call _ => ⟨0x2000, 0xF000⟩
  | .seImm _ _ => ⟨0x3000, 0xF000⟩
  | .sneImm _ _ => ⟨0x4000, 0xF000⟩
  | .seReg _ _ => ⟨0x5000, 0xF00F⟩
  | .ldImm _ _ => ⟨0x6000, 0xF000⟩
  | .addImm _ _ => ⟨0x7000, 0xF000⟩
  | .ldReg _ _ => ⟨0x8000, 0xF00F⟩
  | .orReg _ _ => ⟨0x8001, 0xF00F⟩
  | .andReg _ _ => ⟨0x8002, 0xF00F⟩
  | .xorReg _ _ => ⟨0x8003, 0xF00F⟩
  | .addReg _ _ => ⟨0x8004, 0xF00F⟩
  | .sub _ _ => ⟨0x8005, 0xF00F⟩
  | .shr _ _ => ⟨0x8006, 0xF00F⟩
  | .subn _ _ => ⟨0x8007, 0xF00F⟩
  | .shl _ _ => ⟨0x800E, 0xF00F⟩
  | .sneReg _ _ => ⟨0x9000, 0xF00F⟩
  | .ldI _ => ⟨0xA000, 0xF000⟩
  | .jpV0 _ => ⟨0xB000, 0xF000⟩
  | .rnd _ _ => ⟨0xC000, 0xF000⟩
  | .drw _ _ _ => ⟨0xD000, 0xF000⟩
  | .skp _ => ⟨0xE09E, 0xF0FF⟩
  | .sknp _ => ⟨0xE0A1, 0xF0FF⟩
  | .ldVxDt _ => ⟨0xF007, 0xF0FF⟩
  | .ldVxK _ => ⟨0xF00A, 0xF0FF⟩
  | .ldDtVx _ => ⟨0xF015, 0xF0FF⟩
  | .ldStVx _ => ⟨0xF018, 0xF0FF⟩
  | .addI _ => ⟨0xF01E, 0xF0FF⟩
  | .ldF _ => ⟨0xF029, 0xF0FF⟩
  | .ldB _ => ⟨0xF033, 0xF0FF⟩
  | .ldMemVx _ => ⟨0xF055, 0xF0FF⟩
  | .ldVxMem _ => ⟨0xF065, 0xF0FF⟩

/-- Rows 00E0 to 7XNN of rule R75. -/
def opcodeRowsLow : List OpcodeRow :=
  [⟨0x00E0, 0xFFFF⟩, ⟨0x00EE, 0xFFFF⟩, ⟨0x1000, 0xF000⟩, ⟨0x2000, 0xF000⟩, ⟨0x3000, 0xF000⟩,
   ⟨0x4000, 0xF000⟩, ⟨0x5000, 0xF00F⟩, ⟨0x6000, 0xF000⟩, ⟨0x7000, 0xF000⟩]

/-- Rows 8XY0 to DXYN of rule R75. -/
def opcodeRowsMid : List OpcodeRow :=
  [⟨0x8000, 0xF00F⟩, ⟨0x8001, 0xF00F⟩, ⟨0x8002, 0xF00F⟩, ⟨0x8003, 0xF00F⟩, ⟨0x8004, 0xF00F⟩,
   ⟨0x8005, 0xF00F⟩, ⟨0x8006, 0xF00F⟩, ⟨0x8007, 0xF00F⟩, ⟨0x800E, 0xF00F⟩, ⟨0x9000, 0xF00F⟩,
   ⟨0xA000, 0xF000⟩, ⟨0xB000, 0xF000⟩, ⟨0xC000, 0xF000⟩, ⟨0xD000, 0xF000⟩]

/-- Rows EX9E to FX65 of rule R75. -/
def opcodeRowsHigh : List OpcodeRow :=
  [⟨0xE09E, 0xF0FF⟩, ⟨0xE0A1, 0xF0FF⟩, ⟨0xF007, 0xF0FF⟩, ⟨0xF00A, 0xF0FF⟩, ⟨0xF015, 0xF0FF⟩,
   ⟨0xF018, 0xF0FF⟩, ⟨0xF01E, 0xF0FF⟩, ⟨0xF029, 0xF0FF⟩, ⟨0xF033, 0xF0FF⟩, ⟨0xF055, 0xF0FF⟩,
   ⟨0xF065, 0xF0FF⟩]

/-- The 34 rows of rule R75, in its order. -/
def opcodeRows : List OpcodeRow := opcodeRowsLow ++ opcodeRowsMid ++ opcodeRowsHigh

/-- A word is well formed when some row of rule R75 selects it (rule R74); otherwise it is unrecognised (R76). -/
def wordWellFormed (w : Word) : Bool := opcodeRows.any (·.selects w)

/-- A program image fits when it has at most 3584 bytes (rules R185, R197). -/
def imageWellFormed (image : List Byte) : Bool := image.length ≤ Config.progMax

end Sys2Proof
end

