-- ==== Sys2Proof/Machine/Events.lean ====
section
/-!
DEFINITION. The host's events (00_scope.md rule R5, 60_exceptions.md rules R191 to R198, 70_reset_and_hazards.md
rule R210). `Step` is `step`; the other four stand here.
-/

namespace Sys2Proof.Machine

/-- `Reset` (rule R210): every piece of machine state at its reset value, whatever it was. `draws` is no machine
state and goes on counting, so that a random byte after a reset is a fresh one (log entry 1). FONT is the machine's
parameter and stays (rule R4). -/
def State.resetEvent (s : State) : State := { State.resetWith s.mem.font with draws := s.draws }

/-- A timer counts down by 1 and stays at 0 (rule R191). -/
def countDown (t : Byte) : Byte := if t = 0 then 0 else t - 1

/-- `Tick` (rule R191): both timers count down, each on its own condition. Returns nothing. -/
def State.tick (s : State) : State := { s with dt := countDown s.dt, st := countDown s.st }

/-- `SetKey(k, pressed)` (rule R193). -/
def State.setKey (s : State) (k : KeyIndex) (pressed : Bool) : State :=
  { s with keys := s.keys.set k pressed }

/-- `Load(bytes)` (rules R185, R197): ProgramTooLarge and nothing written, or the bytes from 0x200 on. -/
def State.load (s : State) (image : List Byte) : Result :=
  if imageWellFormed image then
    .next { s with mem := s.mem.writeBytes Config.progBase image, report := .ok }
  else s.raise (.programTooLarge image.length)

/-- The events of rule R5. A run is a list of them, in the order the host issues them (rule R6). -/
inductive Event where
  | reset
  | load (image : List Byte)
  | step
  | tick
  | setKey (k : KeyIndex) (pressed : Bool)
  deriving DecidableEq, Repr

/-- What an event does. The random input of `Step` is the free value `Config.rnd s.draws`. -/
def Event.apply (e : Event) (s : State) : Result :=
  match e with
  | .reset => .next s.resetEvent
  | .load image => s.load image
  | .step => Sys2Proof.Machine.step s
  | .tick => .next s.tick
  | .setKey k pressed => .next (s.setKey k pressed)

/-- The state after an event: a fatal error leaves the state as it was (rules R181 to R183, R185, R188), so the
host may go on from it. -/
def Event.after (e : Event) (s : State) : State :=
  match e.apply s with
  | .next t => t
  | .fault _ => s
  | .refused _ => s

/-- The state after a list of events. -/
def runEvents : List Event → State → State
  | [], s => s
  | e :: es, s => runEvents es (e.after s)

end Sys2Proof.Machine
end

