-- ==== Sys2Proof/Safety.lean ====
section
/-!
DEFINITION. The terms claims are stated in: the invariant of rule R31, what an instruction may change (rule R8),
and states a program cannot tell apart.
-/

namespace Sys2Proof.Machine

/-- A stack entry is 0 or a value 0x0002 to 0x1000 (rule R31). -/
abbrev StackEntryOk (w : Word) : Prop := w = 0 ∨ (0x0002 ≤ w.toNat ∧ w.toNat ≤ 0x1000)

/-- The invariant of rule R31, and the canonical form of memory. That sp is at most 16 and every other range of
rule R31 is in the types of `State`. -/
abbrev State.Inv (s : State) : Prop :=
  s.i.toNat ≤ 0xFFF ∧ s.pc.toNat ≤ 0x10FE ∧ (∀ k : Fin 16, StackEntryOk s.stack[k]) ∧ s.mem.wf

/-- A write set: the pieces of state an instruction may change, besides pc and the model's own `report`. -/
structure Writes where
  regs : List Reg := []
  index : Bool := false
  stackSlots : List Nat := []
  sp : Bool := false
  dt : Bool := false
  st : Bool := false
  fb : Bool := false
  addrs : List Nat := []
  draws : Bool := false
  deriving DecidableEq, Repr

/-- Everything outside the write set is as before: each register, I, each stack slot, sp, both timers, each
pixel, each key, each byte of memory. No instruction writes a key state (rule R29). -/
def Frame (w : Writes) (s t : State) : Prop :=
  (∀ r : Reg, r ∉ w.regs → t.reg r = s.reg r) ∧
  (w.index = false → t.i = s.i) ∧
  (∀ k : Fin 16, k.val ∉ w.stackSlots → t.stack[k] = s.stack[k]) ∧
  (w.sp = false → t.sp = s.sp) ∧
  (w.dt = false → t.dt = s.dt) ∧
  (w.st = false → t.st = s.st) ∧
  (w.fb = false → ∀ x y, t.pixel x y = s.pixel x y) ∧
  (∀ k, t.key k = s.key k) ∧
  (∀ a, a ∉ w.addrs → t.mem.read a = s.mem.read a) ∧
  (w.draws = false → t.draws = s.draws)

/-- The n addresses of a data block at I (rule R54). -/
def blockAddrs (i : Word) (n : Nat) : List Nat := (List.range n).map (ea i)

/-- The Effect column of the opcode table as a write set (rule R8), in the state before the instruction. -/
def writes (i : Instr) (s : State) : Writes :=
  match i with
  | .cls => { fb := true }
  | .ret => { sp := true }
  | .jp _ | .jpV0 _ => {}
  | .call _ => { stackSlots := [s.sp.val], sp := true }
  | .seImm _ _ | .sneImm _ _ | .seReg _ _ | .sneReg _ _ | .skp _ | .sknp _ => {}
  | .ldImm x _ | .addImm x _ | .ldReg x _ | .orReg x _ | .andReg x _ | .xorReg x _ => { regs := [x] }
  | .addReg x _ | .sub x _ | .shr x _ | .subn x _ | .shl x _ => { regs := [x, flagReg] }
  | .ldI _ | .ldF _ => { index := true }
  | .rnd x _ => { regs := [x], draws := true }
  | .drw _ _ _ => { regs := [flagReg], fb := true }
  | .ldVxDt x | .ldVxK x => { regs := [x] }
  | .ldDtVx _ => { dt := true }
  | .ldStVx _ => { st := true }
  | .addI _ => { regs := [flagReg], index := true }
  | .ldB _ => { addrs := blockAddrs s.i 3 }
  | .ldMemVx x => { addrs := blockAddrs s.i (x.val + 1) }
  | .ldVxMem x => { regs := (List.finRange 16).filter (fun r => r ≤ x) }

/-- The instruction is one of the three that read or write a timer (rules R26, R27, R192). -/
def usesTimer : Instr → Bool
  | .ldVxDt _ | .ldDtVx _ | .ldStVx _ => true
  | _ => false

/-- The instruction the next step executes, if any. -/
def State.nextInstr (s : State) : Option Instr := s.fetch.bind decodeWord

/-- Where an instruction that answers a next state leaves pc (the table of rule R23), in the state before it. -/
def pcAfter (i : Instr) (s : State) : Word :=
  match i with
  | .ret => s.top
  | .jp nnn | .call nnn => nnn.setWidth 16
  | .jpV0 nnn => nnn.setWidth 16 + (s.reg 0).setWidth 16
  | .seImm x nn => if s.reg x = nn then s.pc + 4 else s.pc + 2
  | .sneImm x nn => if s.reg x ≠ nn then s.pc + 4 else s.pc + 2
  | .seReg x y => if s.reg x = s.reg y then s.pc + 4 else s.pc + 2
  | .sneReg x y => if s.reg x ≠ s.reg y then s.pc + 4 else s.pc + 2
  | .skp x => if s.key (s.keyOf x) = true then s.pc + 4 else s.pc + 2
  | .sknp x => if s.key (s.keyOf x) = false then s.pc + 4 else s.pc + 2
  | .ldVxK _ => if ∀ k, s.key k = false then s.pc else s.pc + 2
  | _ => s.pc + 2

/-- Calls one after another, each from where the one before it left the machine. -/
def callMany : List (BitVec 12) → State → Result
  | [], s => .next s
  | nnn :: rest, s =>
    match exec (.call nnn) s with
    | .next t => callMany rest t
    | .fault f => .fault f
    | .refused r => .refused r

/-- Equal but for dead stack slots, those at or above sp, which no program can observe (rule R25, decision D7). -/
def EqLive (s t : State) : Prop :=
  (∀ k : Fin 16, k.val < s.sp.val → t.stack[k] = s.stack[k]) ∧ t = { s with stack := t.stack }

/-- Pixel (x, y) lies under a 1 bit of the 8 x n sprite at I drawn at (x0, y0): row r of the sprite is the byte at
(I + r) mod 4096, its bit 7 - c is column c, and both axes wrap (rules R54, R151, R152). Written from the rules'
arithmetic, apart from the drawing loops. -/
def spriteCovers (m : Memory) (i : Word) (n x0 y0 : Nat) (x : Fin 64) (y : Fin 32) : Prop :=
  ∃ r c, r < n ∧ c < 8 ∧ (m.read ((i.toNat + r) % 4096)).getLsbD (7 - c) = true ∧
    x.val = (x0 + c) % 64 ∧ y.val = (y0 + r) % 32

end Sys2Proof.Machine
end

