-- ==== Sys2Proof/Certificates/Slice0/Obligations.lean ====
section
/-!
DEFINITION. The statements for the provers. Each docstring names the rule of spec/ it formalises; where a clause
rests on one of the spec's own decisions (D<n>) or on a choice of the model (log entry n), the docstring says so.
`report` and `draws` are the model's own fields: the host's side of the interface, outside `MachineState` (log
entries 1 and 4).
-/

open Sys2Proof Sys2Proof.Machine

/-! ### Decoding and encoding -/

/-- Decode and encode agree: every instruction, with every operand at every value, is read back from its word, and
from its two bytes whatever follows them (rules R52, R70 to R75). -/
def Obligations.DecodeOfEncode : Prop :=
  ∀ i : Instr, decodeWord (encode i) = some i ∧
    ∀ rest, decode (encodeBytes i ++ rest) = .ok (i, rest)

/-- Every recognised word has one meaning: it is the word of the instruction it decodes to (rules R71, R74). -/
def Obligations.EncodeOfDecode : Prop :=
  ∀ (w : Word) (i : Instr), decodeWord w = some i → encode i = w

/-- The decoder recognises exactly the words a row of rule R75 selects, and decodes each to an instruction of that
row (rule R74; that fixed nibbles must match is decision D23). -/
def Obligations.DecodesIffRowSelects : Prop :=
  ∀ w : Word, (decodeWord w).isSome = wordWellFormed w ∧
    ∀ i, decodeWord w = some i → i.row ∈ opcodeRows ∧ i.row.selects w = true

/-- The 34 rows are pairwise disjoint: no word selects two of them (rule R74, which marks it derived). -/
def Obligations.RowsDisjoint : Prop :=
  opcodeRows.length = 34 ∧
    ∀ (w : Word), ∀ r ∈ opcodeRows, ∀ q ∈ opcodeRows, r.selects w = true → q.selects w = true → r = q

/-- The unrecognised words are exactly those of rule R76's table (decision D23). -/
def Obligations.UnrecognisedWords : Prop :=
  ∀ w : Word, decodeWord w = none ↔
    (w.toNat / 4096 = 0x0 ∧ w.toNat ≠ 0x00E0 ∧ w.toNat ≠ 0x00EE) ∨
    (w.toNat / 4096 = 0x5 ∧ w.toNat % 16 ≠ 0) ∨
    (w.toNat / 4096 = 0x8 ∧ w.toNat % 16 ∈ [0x8, 0x9, 0xA, 0xB, 0xC, 0xD, 0xF]) ∨
    (w.toNat / 4096 = 0x9 ∧ w.toNat % 16 ≠ 0) ∨
    (w.toNat / 4096 = 0xE ∧ w.toNat % 256 ∉ [0x9E, 0xA1]) ∨
    (w.toNat / 4096 = 0xF ∧ w.toNat % 256 ∉ [0x07, 0x0A, 0x15, 0x18, 0x1E, 0x29, 0x33, 0x55, 0x65])

/-- A few words written out from rules R71 and R75 decode to the instructions they stand for. -/
def Obligations.SampleWordsDecode : Prop :=
  decodeWord 0x00E0 = some .cls ∧ decodeWord 0x00EE = some .ret ∧
  decodeWord 0x1ABC = some (.jp 0xABC) ∧ decodeWord 0x3C7F = some (.seImm 0xC 0x7F) ∧
  decodeWord 0x5120 = some (.seReg 1 2) ∧ decodeWord 0x8AB4 = some (.addReg 0xA 0xB) ∧
  decodeWord 0x8ABE = some (.shl 0xA 0xB) ∧ decodeWord 0xD12F = some (.drw 1 2 15) ∧
  decodeWord 0xE19E = some (.skp 1) ∧ decodeWord 0xF165 = some (.ldVxMem 1) ∧ decodeWord 0x0000 = none

/-! ### The step -/

/-- A step runs the decoded instruction: where the two bytes at pc, high byte first, decode to `i`, the step is
`exec i` at that state and nothing else (rules R7, R52). -/
def Obligations.StepRunsDecodedInstruction : Prop :=
  ∀ (s : State) (i : Instr), s.pc.toNat + 1 ≤ 0xFFF →
    decodeWord (s.mem.read s.pc.toNat ++ s.mem.read (s.pc.toNat + 1)) = some i → step s = exec i s

/-- InvalidAddress (rule R181): raised exactly when pc + 1 > 0xFFF, with the address pc; the step changes nothing,
and every following step raises it again, whatever events but Reset come between. That pc is never masked is
decision D4 (log entry 8); that the error is a fault with the payload of decision D24, and that the state is then as
it was with no latch, decision D8, is the model's form of it (log entry 6). -/
def Obligations.InvalidAddressExactly : Prop :=
  (∀ (s : State) (a : Word), step s = .fault (.invalidAddress a) ↔ s.pc.toNat + 1 > 0xFFF ∧ a = s.pc) ∧
  (∀ s : State, s.pc.toNat + 1 > 0xFFF → Event.step.after s = s) ∧
  (∀ (s : State) (es : List Event), s.pc.toNat + 1 > 0xFFF → Event.reset ∉ es →
    step (runEvents es s) = .fault (.invalidAddress s.pc)) ∧
  (∀ s : State, (Event.reset.after s).pc.toNat + 1 ≤ 0xFFF)

/-- UnknownOpcode (rule R184, decision D9): an unrecognised word leaves pc = pc0 + 2 and changes nothing else, and
the error is reported with its address and word, in this case only. That it is a next state whose `report` carries
the error is the model's form of it (log entries 4 and 5). -/
def Obligations.UnknownOpcodeAdvances : Prop :=
  (∀ (s : State) (w : Word), s.fetch = some w → decodeWord w = none →
    step s = .next { s with pc := s.pc + 2, report := .unknownOpcode s.pc w }) ∧
  (∀ (s t : State) (a w : Word), step s = .next t → t.report = .unknownOpcode a w →
    a = s.pc ∧ s.fetch = some w ∧ decodeWord w = none)

/-- The outcomes of a step are those of rule R10, each exactly in its own case (rules R163, R181 to R184, R186): Ok
where a recognised instruction is none of a return with sp = 0, a call with sp = 16 and a key wait with no key
pressed, and each other outcome where its own condition holds. No step is refused. The form of the outcomes is the
model's (log entries 4 to 6). -/
def Obligations.StepOutcomes : Prop :=
  ∀ s : State,
    (∃ t i, step s = .next t ∧ t.report = .ok ∧ s.nextInstr = some i ∧ ¬ (i = .ret ∧ s.sp = 0) ∧
      (∀ nnn, ¬ (i = .call nnn ∧ s.sp = 16)) ∧ (∀ x, i = .ldVxK x → ∃ k, s.key k = true)) ∨
    (step s = .next { s with report := .waitingForKey } ∧ (∃ x, s.nextInstr = some (.ldVxK x)) ∧
      ∀ k, s.key k = false) ∨
    (∃ w, s.fetch = some w ∧ decodeWord w = none ∧
      step s = .next { s with pc := s.pc + 2, report := .unknownOpcode s.pc w }) ∨
    (step s = .fault (.invalidAddress s.pc) ∧ s.pc.toNat + 1 > 0xFFF) ∨
    (step s = .fault (.stackOverflow s.pc) ∧ s.sp = 16 ∧ ∃ nnn, s.nextInstr = some (.call nnn)) ∨
    (step s = .fault (.stackUnderflow s.pc) ∧ s.sp = 0 ∧ s.nextInstr = some .ret)

/-! ### Control transfer -/

/-- 00EE (rule R100): with sp = 0, StackUnderflow; else sp - 1, pc is the popped entry exactly, the entry keeps
its value, and no register (VF) changes; a popped value past the last fetch makes the next step raise
InvalidAddress; and no instruction alters a live stack entry, so the value popped is the one pushed. Which slot is
read and that it keeps its value are decisions D6 and D7 (log entry 18); the form of the two errors is the model's
(log entries 6 and 8; decisions D4, D8, D24). -/
def Obligations.ReturnPops : Prop :=
  encode .ret = 0x00EE ∧
  (∀ s : State, s.sp = 0 → exec .ret s = .fault (.stackUnderflow s.pc)) ∧
  (∀ s : State, s.sp ≠ 0 → ∃ t, exec .ret s = .next t ∧ t.sp.val + 1 = s.sp.val ∧
    s.stack[t.sp.val]? = some t.pc ∧ t.stack = s.stack ∧ (∀ r, t.reg r = s.reg r) ∧
    (t.pc.toNat + 1 > 0xFFF → step t = .fault (.invalidAddress t.pc))) ∧
  (∀ (i : Instr) (s t : State) (k : Fin 16), k.val < s.sp.val → exec i s = .next t → t.stack[k] = s.stack[k])

/-- StackUnderflow (rule R183): 00EE with sp = 0 records pc0 and changes no state, so a repeated step raises it
again; no other state raises it. That the error is a fault with the payload pc0 and that the state is then as it was
is the model's form of it (log entry 6; decisions D8, D24). -/
def Obligations.StackUnderflowExactly : Prop :=
  (∀ (s : State) (a : Word), exec .ret s = .fault (.stackUnderflow a) ↔ s.sp = 0 ∧ a = s.pc) ∧
  (∀ s : State, s.nextInstr = some .ret → s.sp = 0 →
    step s = .fault (.stackUnderflow s.pc) ∧ Event.step.after s = s)

/-- StackOverflow (rule R182): 2NNN with sp = 16 records pc0 and changes no state, so a repeated step raises it
again; and 17 nested calls raise it: sixteen succeed from an empty stack and the next one faults. That the error is
a fault with the payload pc0 and that the state is then as it was is the model's form of it (log entry 6; decisions
D8, D24). -/
def Obligations.StackOverflowExactly : Prop :=
  (∀ (s : State) (nnn : BitVec 12) (a : Word),
    exec (.call nnn) s = .fault (.stackOverflow a) ↔ s.sp = 16 ∧ a = s.pc) ∧
  (∀ (s : State) (nnn : BitVec 12), s.nextInstr = some (.call nnn) → s.sp = 16 →
    step s = .fault (.stackOverflow s.pc) ∧ Event.step.after s = s) ∧
  (∀ (s : State) (targets : List (BitVec 12)), s.sp = 0 → targets.length = 16 →
    ∃ t, callMany targets s = .next t ∧ t.sp = 16 ∧
      ∀ nnn, exec (.call nnn) t = .fault (.stackOverflow t.pc))

/-- 1NNN (rule R101): pc = NNN, zero-extended, and nothing else changes (the model's own `report` is Ok); NNN = 0xFFF
makes the next step raise InvalidAddress; a jump to itself leaves the whole machine state unchanged. That pc is never
masked is decision D4 (log entry 8); the error as a fault with its address is the model's form of it (log entry 6;
decision D24). -/
def Obligations.JumpSetsPc : Prop :=
  ∀ (nnn : BitVec 12) (s : State), encode (.jp nnn) &&& 0xF000 = 0x1000 ∧
    ∃ t, exec (.jp nnn) s = .next t ∧ t.pc.toNat = nnn.toNat ∧ (∀ r, t.reg r = s.reg r) ∧
      t.stack = s.stack ∧ t.sp = s.sp ∧ t = { s with pc := nnn.setWidth 16, report := .ok } ∧
      (nnn = 0xFFF → step t = .fault (.invalidAddress 0x0FFF)) ∧
      (s.pc.toNat = nnn.toNat → t = { s with report := .ok })

/-- 2NNN (rule R102) with sp below 16: pc0 + 2 goes to stack[sp] (decision D6), the other entries keep their values
(decision D7), sp + 1, pc = NNN. -/
def Obligations.CallPushes : Prop :=
  ∀ (nnn : BitVec 12) (s : State), s.sp ≠ 16 →
    ∃ t, exec (.call nnn) s = .next t ∧ t.stack[s.sp.val]? = some (s.pc + 2) ∧
      (∀ k : Fin 16, k.val ≠ s.sp.val → t.stack[k] = s.stack[k]) ∧
      t.sp.val = s.sp.val + 1 ∧ t.pc.toNat = nnn.toNat ∧ ∀ r, t.reg r = s.reg r

/-- A call and its return (rules R100, R102; decision D6): whatever the called code did, if it left the stack and
sp as the call made them, 00EE gives pc the address after the call and sp its value before it. -/
def Obligations.CallThenReturn : Prop :=
  ∀ (nnn : BitVec 12) (s : State), s.sp ≠ 16 →
    ∃ t, exec (.call nnn) s = .next t ∧
      ∀ u : State, u.stack = t.stack → u.sp = t.sp →
        ∃ v, exec .ret u = .next v ∧ v.pc = s.pc + 2 ∧ v.sp = s.sp

/-- BNNN (rule R103): pc = NNN + V[0], not reduced modulo 4096 (decision D4); registers and stack are untouched; a
sum of 0xFFF or more makes the next step raise InvalidAddress (log entries 6 and 8; decision D24). -/
def Obligations.JumpV0SetsPc : Prop :=
  ∀ (nnn : BitVec 12) (s : State),
    ∃ t, exec (.jpV0 nnn) s = .next t ∧ t.pc.toNat = nnn.toNat + (s.reg 0).toNat ∧
      (∀ r, t.reg r = s.reg r) ∧ t.stack = s.stack ∧ t.sp = s.sp ∧
      (nnn.toNat + (s.reg 0).toNat ≥ 0xFFF → step t = .fault (.invalidAddress t.pc))

/-! ### Skips -/

/-- 3XNN and 4XNN (rules R110, R111): pc0 + 4 when V[X] equals (differs from) NN, else pc0 + 2; no flag; for the
same operands exactly one of the two skips. -/
def Obligations.SkipsOnImmediate : Prop :=
  ∀ (x : Reg) (nn : Byte) (s : State),
    encode (.seImm x nn) &&& 0xF000 = 0x3000 ∧ encode (.sneImm x nn) &&& 0xF000 = 0x4000 ∧
    ∃ t u, exec (.seImm x nn) s = .next t ∧ exec (.sneImm x nn) s = .next u ∧
      t.pc = (if s.reg x = nn then s.pc + 4 else s.pc + 2) ∧
      u.pc = (if s.reg x = nn then s.pc + 2 else s.pc + 4) ∧
      ∀ r, t.reg r = s.reg r ∧ u.reg r = s.reg r

/-- 5XY0 and 9XY0 (rules R112, R113): pc0 + 4 when V[X] equals (differs from) V[Y], else pc0 + 2; no flag; X = Y
always skips in the one and never in the other; a low nibble other than 0 is an unrecognised word (decision D23, log
entry 19). -/
def Obligations.SkipsOnRegisters : Prop :=
  (∀ (x y : Reg) (s : State),
    encode (.seReg x y) &&& 0xF00F = 0x5000 ∧ encode (.sneReg x y) &&& 0xF00F = 0x9000 ∧
    ∃ t u, exec (.seReg x y) s = .next t ∧ exec (.sneReg x y) s = .next u ∧
      t.pc = (if s.reg x = s.reg y then s.pc + 4 else s.pc + 2) ∧
      u.pc = (if s.reg x = s.reg y then s.pc + 2 else s.pc + 4) ∧
      (x = y → t.pc = s.pc + 4 ∧ u.pc = s.pc + 2) ∧
      ∀ r, t.reg r = s.reg r ∧ u.reg r = s.reg r) ∧
  (∀ w : Word, w.toNat / 4096 = 0x5 ∨ w.toNat / 4096 = 0x9 → w.toNat % 16 ≠ 0 → decodeWord w = none)

/-- EX9E and EXA1 (rules R161, R162): pc0 + 4 when the key selected by the low four bits of V[X] (decision D13) is
pressed (not pressed), else pc0 + 2; the key states and registers are unchanged. -/
def Obligations.SkipsOnKeys : Prop :=
  ∀ (x : Reg) (s : State) (k : KeyIndex), k.val = (s.reg x).toNat % 16 →
    ∃ t u, exec (.skp x) s = .next t ∧ exec (.sknp x) s = .next u ∧
      t.pc = (if s.key k = true then s.pc + 4 else s.pc + 2) ∧
      u.pc = (if s.key k = true then s.pc + 2 else s.pc + 4) ∧
      (∀ r, t.reg r = s.reg r ∧ u.reg r = s.reg r) ∧ ∀ j, t.key j = s.key j ∧ u.key j = s.key j

/-! ### Load, arithmetic, logic, shifts -/

/-- 6XNN (rule R120): V[X] = NN; VF changes only if X = 15, and then as plain data. -/
def Obligations.LoadImmediate : Prop :=
  ∀ (x : Reg) (nn : Byte) (s : State), encode (.ldImm x nn) &&& 0xF000 = 0x6000 ∧
    ∃ t, exec (.ldImm x nn) s = .next t ∧ t.reg x = nn ∧ (∀ r, r ≠ x → t.reg r = s.reg r) ∧
      t.pc = s.pc + 2

/-- 7XNN (rule R121): V[X] = (V[X] + NN) mod 256 with no flag, even when the sum exceeds 255; with X = 15 VF holds
the wrapped sum. -/
def Obligations.AddImmediate : Prop :=
  ∀ (x : Reg) (nn : Byte) (s : State), encode (.addImm x nn) &&& 0xF000 = 0x7000 ∧
    ∃ t, exec (.addImm x nn) s = .next t ∧
      (t.reg x).toNat = ((s.reg x).toNat + nn.toNat) % 256 ∧ (∀ r, r ≠ x → t.reg r = s.reg r) ∧
      t.pc = s.pc + 2

/-- 8XY0 (rule R122): V[X] = V[Y], every other register unchanged; X = Y changes nothing but pc. -/
def Obligations.CopyRegister : Prop :=
  ∀ (x y : Reg) (s : State), encode (.ldReg x y) &&& 0xF00F = 0x8000 ∧
    ∃ t, exec (.ldReg x y) s = .next t ∧ t.reg x = s.reg y ∧ (∀ r, r ≠ x → t.reg r = s.reg r) ∧
      t.pc = s.pc + 2 ∧ (x = y → t = { s with pc := s.pc + 2, report := .ok })

/-- 8XY1, 8XY2, 8XY3 (rules R123 to R125): bitwise OR, AND, XOR of the old V[X] and V[Y]; no flag: VF and every
other register are unchanged unless X names them (decision D11). -/
def Obligations.LogicOperations : Prop :=
  ∀ (x y : Reg) (s : State),
    ∃ t u v, exec (.orReg x y) s = .next t ∧ exec (.andReg x y) s = .next u ∧
      exec (.xorReg x y) s = .next v ∧
      (∀ k, k < 8 →
        (t.reg x).getLsbD k = ((s.reg x).getLsbD k || (s.reg y).getLsbD k) ∧
        (u.reg x).getLsbD k = ((s.reg x).getLsbD k && (s.reg y).getLsbD k) ∧
        (v.reg x).getLsbD k = ((s.reg x).getLsbD k ^^ (s.reg y).getLsbD k)) ∧
      (∀ r, r ≠ x → t.reg r = s.reg r ∧ u.reg r = s.reg r ∧ v.reg r = s.reg r) ∧
      t.pc = s.pc + 2 ∧ u.pc = s.pc + 2 ∧ v.pc = s.pc + 2

/-- 8XY4 (rule R126): V[X] = (V[X] + V[Y]) mod 256, VF = 1 if the sum exceeds 255 else 0, from the old values. With
X = 15 the flag wins (decision D10). -/
def Obligations.AddRegisters : Prop :=
  ∀ (x y : Reg) (s : State), ∃ t, exec (.addReg x y) s = .next t ∧
    (x ≠ 15 → (t.reg x).toNat = ((s.reg x).toNat + (s.reg y).toNat) % 256) ∧
    t.reg 15 = (if (s.reg x).toNat + (s.reg y).toNat > 255 then 1 else 0) ∧
    (∀ r, r ≠ x → r ≠ 15 → t.reg r = s.reg r) ∧ t.pc = s.pc + 2

/-- 8XY5 and 8XY7 (rules R127, R129): the difference modulo 256 with the mathematical remainder, VF = 0 if the
minuend is less than the subtrahend else 1, from the old values. With X = 15 the flag wins (decision D10). -/
def Obligations.SubtractRegisters : Prop :=
  ∀ (x y : Reg) (s : State), ∃ t u, exec (.sub x y) s = .next t ∧ exec (.subn x y) s = .next u ∧
    (x ≠ 15 → ((t.reg x).toNat : Int) = (((s.reg x).toNat : Int) - (s.reg y).toNat) % 256) ∧
    (x ≠ 15 → ((u.reg x).toNat : Int) = (((s.reg y).toNat : Int) - (s.reg x).toNat) % 256) ∧
    t.reg 15 = (if (s.reg x).toNat < (s.reg y).toNat then 0 else 1) ∧
    u.reg 15 = (if (s.reg y).toNat < (s.reg x).toNat then 0 else 1) ∧
    (∀ r, r ≠ x → r ≠ 15 → t.reg r = s.reg r ∧ u.reg r = s.reg r) ∧
    t.pc = s.pc + 2 ∧ u.pc = s.pc + 2

/-- 8XY6 and 8XYE (rules R128, R130): V[X] shifted by one position, VF = the bit shifted out of the old V[X]; Y is
ignored. With X = 15 the flag wins (decision D10). -/
def Obligations.ShiftRegister : Prop :=
  ∀ (x y : Reg) (s : State),
    (∀ z, exec (.shr x z) s = exec (.shr x y) s ∧ exec (.shl x z) s = exec (.shl x y) s) ∧
    ∃ t u, exec (.shr x y) s = .next t ∧ exec (.shl x y) s = .next u ∧
      (x ≠ 15 → (t.reg x).toNat = (s.reg x).toNat / 2) ∧
      (x ≠ 15 → (u.reg x).toNat = ((s.reg x).toNat * 2) % 256) ∧
      (t.reg 15).toNat = (s.reg x).toNat % 2 ∧ (u.reg 15).toNat = (s.reg x).toNat / 128 ∧
      (∀ r, r ≠ x → r ≠ 15 → t.reg r = s.reg r ∧ u.reg r = s.reg r) ∧
      t.pc = s.pc + 2 ∧ u.pc = s.pc + 2

/-! ### The index register and memory -/

/-- ANNN (rule R140): I = NNN exactly, 0 to 0xFFF. -/
def Obligations.LoadIndex : Prop :=
  ∀ (nnn : BitVec 12) (s : State), encode (.ldI nnn) &&& 0xF000 = 0xA000 ∧
    ∃ t, exec (.ldI nnn) s = .next t ∧ t.i.toNat = nnn.toNat ∧ t.i.toNat ≤ 0xFFF ∧
      (∀ r, t.reg r = s.reg r) ∧ t.pc = s.pc + 2

/-- FX1E (rule R141): I = (I + V[X]) mod 4096, VF = 1 if the sum exceeds 0xFFF else 0, from the old values; every
other register is unchanged. With X = 15 the flag wins (decision D10). -/
def Obligations.AddToIndex : Prop :=
  ∀ (x : Reg) (s : State), ∃ t, exec (.addI x) s = .next t ∧
    t.i.toNat = (s.i.toNat + (s.reg x).toNat) % 4096 ∧
    t.reg 15 = (if s.i.toNat + (s.reg x).toNat > 0xFFF then 1 else 0) ∧
    (∀ r, r ≠ 15 → t.reg r = s.reg r) ∧ t.pc = s.pc + 2

/-- FX29 (rule R142): I = 5 * V[X] on the whole byte (decision D14), at most 0x4FB; registers and memory are
unchanged. -/
def Obligations.GlyphIndex : Prop :=
  ∀ (x : Reg) (s : State), ∃ t, exec (.ldF x) s = .next t ∧
    t.i.toNat = 5 * (s.reg x).toNat ∧ t.i.toNat ≤ 0x4FB ∧ (∀ r, t.reg r = s.reg r) ∧
    t.mem = s.mem ∧ t.pc = s.pc + 2

/-- FX33 (rule R143): the decimal digits of V[X], one a byte, hundreds first, at (I + k) mod 4096 for k = 0, 1, 2
(decision D3); I, every register and every other byte of memory are unchanged. -/
def Obligations.StoreDecimal : Prop :=
  ∀ (x : Reg) (s : State), ∃ t, exec (.ldB x) s = .next t ∧
    (t.mem.read (s.i.toNat % 4096)).toNat = (s.reg x).toNat / 100 ∧
    (t.mem.read ((s.i.toNat + 1) % 4096)).toNat = (s.reg x).toNat / 10 % 10 ∧
    (t.mem.read ((s.i.toNat + 2) % 4096)).toNat = (s.reg x).toNat % 10 ∧
    (∀ a, a ∉ blockAddrs s.i 3 → t.mem.read a = s.mem.read a) ∧
    t.i = s.i ∧ (∀ r, t.reg r = s.reg r) ∧ t.pc = s.pc + 2

/-- FX55 (rule R144): V[k] at (I + k) mod 4096 for k = 0 to X (decision D3); I, every register and every other byte
of memory are unchanged. -/
def Obligations.StoreRegisters : Prop :=
  ∀ (x : Reg) (s : State), ∃ t, exec (.ldMemVx x) s = .next t ∧
    (∀ k : Reg, k ≤ x → t.mem.read ((s.i.toNat + k.val) % 4096) = s.reg k) ∧
    (∀ a, a ∉ blockAddrs s.i (x.val + 1) → t.mem.read a = s.mem.read a) ∧
    t.i = s.i ∧ (∀ r, t.reg r = s.reg r) ∧ t.pc = s.pc + 2

/-- FX65 (rule R145): V[k] is the byte at (I + k) mod 4096 for k = 0 to X (decision D3); registers above X, I and
memory are unchanged. -/
def Obligations.LoadRegisters : Prop :=
  ∀ (x : Reg) (s : State), ∃ t, exec (.ldVxMem x) s = .next t ∧
    (∀ k : Reg, k ≤ x → t.reg k = s.mem.read ((s.i.toNat + k.val) % 4096)) ∧
    (∀ k : Reg, x < k → t.reg k = s.reg k) ∧
    t.i = s.i ∧ t.mem = s.mem ∧ t.pc = s.pc + 2

/-- FX55 then FX65 (rules R144, R145; source example S7): storing V0 to VX at I and loading them into fresh
registers gives back the values, wherever I points; I is unchanged by both. -/
def Obligations.StoreLoadRoundTrip : Prop :=
  ∀ (x : Reg) (s : State) (fresh : Vector Byte 16),
    ∃ t u, exec (.ldMemVx x) s = .next t ∧ exec (.ldVxMem x) { t with v := fresh } = .next u ∧
      (∀ k : Reg, k ≤ x → u.reg k = s.reg k) ∧ (∀ k : Reg, x < k → u.reg k = fresh[k]) ∧ u.i = s.i

/-- Fetch is coherent with stores (rule R60, which marks it derived): the first two bytes FX55 stores at I are the
word the next fetch at I reads. -/
def Obligations.StoredWordIsFetched : Prop :=
  ∀ (x : Reg) (s : State), 1 ≤ x.val → s.i.toNat + 1 ≤ 0xFFF →
    ∃ t, exec (.ldMemVx x) s = .next t ∧ ({ t with pc := s.i } : State).fetch = some (s.reg 0 ++ s.reg 1)

/-- Memory's canonical form is canonical: two memories in it, of machines with the same parameter FONT (which no event
changes: FontIsParameter), that read alike at every address are equal data. This is about the model's own
representation of memory (log entry 3). -/
def Obligations.MemoryFormCanonical : Prop :=
  ∀ m n : Memory, m.font = n.font → m.wf → n.wf → (∀ a, a < 4096 → m.read a = n.read a) → m = n

/-! ### The display -/

/-- 00E0 (rule R150): every pixel 0; VF and every other register are unchanged; clearing a clear framebuffer
changes nothing but pc (and the model's own `report`); no instruction but 00E0 and the drawing one, DXYN, changes a
pixel; Reset clears them all; and no event but Reset and a step that executes 00E0 or DXYN changes a pixel: not Tick,
SetKey or Load, and not a step that fails or meets an unrecognised word. -/
def Obligations.ClearScreen : Prop :=
  encode .cls = 0x00E0 ∧
  (∀ s : State, ∃ t, exec .cls s = .next t ∧ (∀ x y, t.pixel x y = false) ∧
    (∀ r, t.reg r = s.reg r) ∧ t.pc = s.pc + 2 ∧
    ((∀ x y, s.pixel x y = false) → t = { s with pc := s.pc + 2, report := .ok })) ∧
  (∀ (i : Instr) (s t : State), i ≠ .cls → (∀ x y n, i ≠ .drw x y n) → exec i s = .next t →
    ∀ x y, t.pixel x y = s.pixel x y) ∧
  (∀ (s : State) x y, (Event.reset.after s).pixel x y = false) ∧
  (∀ (e : Event) (s : State), e ≠ .reset →
    (e = .step → s.nextInstr ≠ some .cls ∧ ∀ x y n, s.nextInstr ≠ some (.drw x y n)) →
    ∀ x y, (e.after s).pixel x y = s.pixel x y)

/-- DXYN (rule R151): a pixel is inverted exactly when it lies under a 1 bit of the sprite at (V[X] mod 64, V[Y] mod
32), wrapped on both axes (rows: decision D15; bit 7 leftmost: decision D16; addresses: decision D3); VF = 1 if
some such pixel was 1, else 0, whatever N is (N = 0: decision D17); every other register, I and memory are
unchanged, and X = 15 or Y = 15 use the old VF (decision D10). -/
def Obligations.DrawSprite : Prop :=
  ∀ (x y : Reg) (n : BitVec 4) (s : State), ∃ t, exec (.drw x y n) s = .next t ∧
    (∀ px py, t.pixel px py = true ↔
      ¬ (s.pixel px py = true ↔
        spriteCovers s.mem s.i n.toNat ((s.reg x).toNat % 64) ((s.reg y).toNat % 32) px py)) ∧
    ((∃ px py, s.pixel px py = true ∧
        spriteCovers s.mem s.i n.toNat ((s.reg x).toNat % 64) ((s.reg y).toNat % 32) px py) → t.reg 15 = 1) ∧
    ((¬ ∃ px py, s.pixel px py = true ∧
        spriteCovers s.mem s.i n.toNat ((s.reg x).toNat % 64) ((s.reg y).toNat % 32) px py) → t.reg 15 = 0) ∧
    (∀ r, r ≠ 15 → t.reg r = s.reg r) ∧ t.i = s.i ∧ t.mem = s.mem ∧ t.pc = s.pc + 2

/-- Drawing is self-inverse (rule R151, case (h); decisions D15, D16): the same sprite drawn twice at the same place,
its coordinates not in VF, gives back every pixel; and if the first draw set a pixel, the second reports a
collision. -/
def Obligations.DrawTwiceRestores : Prop :=
  ∀ (x y : Reg) (n : BitVec 4) (s : State), x ≠ 15 → y ≠ 15 →
    ∃ t u, exec (.drw x y n) s = .next t ∧ exec (.drw x y n) t = .next u ∧
      (∀ px py, u.pixel px py = s.pixel px py) ∧
      ((∃ px py, s.pixel px py = false ∧ t.pixel px py = true) → u.reg 15 = 1)

/-! ### Random, keys, timers -/

/-- CXNN (rule R160): V[X] = rnd & NN for the step's random byte, whatever it is; other registers are unchanged; one
fresh byte per executed CXNN and none for any other instruction. That the byte is the free value `Config.rnd draws`
is the model's form of the input (log entry 1). -/
def Obligations.RandomUnderMask : Prop :=
  (∀ (x : Reg) (nn : Byte) (s : State), ∃ t, exec (.rnd x nn) s = .next t ∧
    t.reg x = Config.rnd s.draws &&& nn ∧ (∀ r, r ≠ x → t.reg r = s.reg r) ∧
    t.draws = s.draws + 1 ∧ t.pc = s.pc + 2) ∧
  (∀ (i : Instr) (s t : State), (∀ x nn, i ≠ .rnd x nn) → exec i s = .next t → t.draws = s.draws)

/-- FX0A (rule R163): with no key pressed the outcome is WaitingForKey and nothing changes (the model's own `report`
apart); else V[X] is the least pressed key (decision D12), level-sensitive (decision D31), and pc = pc0 + 2. -/
def Obligations.WaitForKey : Prop :=
  (∀ (x : Reg) (s : State), (∀ k, s.key k = false) →
    exec (.ldVxK x) s = .next { s with report := .waitingForKey }) ∧
  (∀ (x : Reg) (s : State) (k : KeyIndex), s.key k = true → (∀ j, j < k → s.key j = false) →
    ∃ t, exec (.ldVxK x) s = .next t ∧ (t.reg x).toNat = k.val ∧ (∀ r, r ≠ x → t.reg r = s.reg r) ∧
      (∀ j, t.key j = s.key j) ∧ t.pc = s.pc + 2 ∧ t.report = .ok)

/-- FX07, FX15, FX18 (rules R164 to R166): V[X] = DT, DT = V[X], ST = V[X]; the other registers and the other timer
are unchanged; each tick takes one off a timer until it is 0 (rule R191), so DT read later is at most the value
written; in every state the tone sounds exactly while ST is nonzero (rule R196), so it ends when ticks have brought ST
to 0; and no instruction reads ST: what an instruction does is the same whatever ST is. -/
def Obligations.TimerMoves : Prop :=
  ∀ (x : Reg) (s : State),
    encode (.ldVxDt x) &&& 0xF0FF = 0xF007 ∧ encode (.ldDtVx x) &&& 0xF0FF = 0xF015 ∧
    encode (.ldStVx x) &&& 0xF0FF = 0xF018 ∧
    (∃ t, exec (.ldVxDt x) s = .next t ∧ t.reg x = s.dt ∧ (∀ r, r ≠ x → t.reg r = s.reg r) ∧
      t.dt = s.dt ∧ t.st = s.st ∧ t.pc = s.pc + 2) ∧
    (∃ t, exec (.ldDtVx x) s = .next t ∧ t.dt = s.reg x ∧ t.st = s.st ∧ (∀ r, t.reg r = s.reg r) ∧
      t.pc = s.pc + 2) ∧
    (∃ t, exec (.ldStVx x) s = .next t ∧ t.st = s.reg x ∧ t.dt = s.dt ∧ (∀ r, t.reg r = s.reg r) ∧
      (t.soundOn = true ↔ s.reg x ≠ 0) ∧ t.pc = s.pc + 2) ∧
    (∀ k : Nat, (runEvents (List.replicate k Event.tick) s).dt.toNat = s.dt.toNat - k ∧
      (runEvents (List.replicate k Event.tick) s).st.toNat = s.st.toNat - k ∧
      ((runEvents (List.replicate k Event.tick) s).soundOn = true ↔ k < s.st.toNat)) ∧
    (s.soundOn = true ↔ s.st ≠ 0) ∧
    (∀ (i : Instr) (b : Byte),
      (∀ t, exec i s = .next t → ∃ u, exec i { s with st := b } = .next u ∧ { u with st := t.st } = t) ∧
      (∀ f, exec i s = .fault f → exec i { s with st := b } = .fault f))

/-! ### The host's events -/

/-- Tick (rule R191): each timer is decremented by 1 if it is above 0 and stays at 0 otherwise, independently;
nothing else changes, and Tick cannot fail. -/
def Obligations.TickCountsDown : Prop :=
  ∀ s : State, ∃ t, Event.tick.apply s = .next t ∧
    (s.dt.toNat > 0 → t.dt.toNat = s.dt.toNat - 1) ∧ (s.dt.toNat = 0 → t.dt.toNat = 0) ∧
    (s.st.toNat > 0 → t.st.toNat = s.st.toNat - 1) ∧ (s.st.toNat = 0 → t.st.toNat = 0) ∧
    t = { s with dt := t.dt, st := t.st }

/-- SetKey (rule R193): KEY[k] = pressed, every other key and every other piece of state unchanged; it cannot
fail. -/
def Obligations.SetKeyWritesOneKey : Prop :=
  ∀ (k : KeyIndex) (p : Bool) (s : State), ∃ t, (Event.setKey k p).apply s = .next t ∧
    t.key k = p ∧ (∀ j, j ≠ k → t.key j = s.key j) ∧ t = { s with keys := t.keys }

/-- Load (rule R197): more than 3584 bytes is ProgramTooLarge with nothing written; else byte k of the image goes to
0x200 + k, every other byte and every other piece of state is as before (the model's own `report` apart), so that
with pc at 0x200 the image's first two bytes, high byte first, are the next word fetched. That a failed load writes
nothing (rule R185) and that Load may come at any time are decision D21 (log entry 17); the error as a fault with its
length is the model's form of it (log entry 6; decision D24). -/
def Obligations.LoadCopiesImage : Prop :=
  ∀ (image : List Byte) (s : State),
    (image.length > 3584 → (Event.load image).apply s = .fault (.programTooLarge image.length) ∧
      (Event.load image).after s = s) ∧
    (image.length ≤ 3584 → ∃ t, (Event.load image).apply s = .next t ∧
      (∀ k (h : k < image.length), t.mem.read (0x200 + k) = image[k]) ∧
      (∀ a, a < 0x200 ∨ 0x200 + image.length ≤ a → t.mem.read a = s.mem.read a) ∧
      t = { s with mem := t.mem, report := .ok } ∧
      (∀ h : 1 < image.length, s.pc = 0x200 → t.fetch = some (image[0] ++ image[1])))

/-- Reset (rules R34, R210): every piece of machine state at its reset value, whatever the state before, and a second
Reset changes nothing. I = 0 is decision D2; memory holds the machine's own FONT, the parameter of rules R4 and R61, whatever
its bytes are (log entry 2), and it stays; `draws` goes on counting (log entry 1). -/
def Obligations.ResetValues : Prop :=
  ∀ s : State, ∃ t, Event.reset.apply s = .next t ∧
    (∀ r, t.reg r = 0) ∧ t.i = 0 ∧ t.pc = 0x200 ∧ (∀ k : Fin 16, t.stack[k] = 0) ∧ t.sp = 0 ∧
    t.dt = 0 ∧ t.st = 0 ∧ (∀ x y, t.pixel x y = false) ∧ (∀ k, t.key k = false) ∧
    (∀ a (h : a < 80), t.mem.read a = s.mem.font[a]) ∧ (∀ a, 80 ≤ a → t.mem.read a = 0) ∧
    t.mem.font = s.mem.font ∧
    t.draws = s.draws ∧ Event.reset.apply t = .next t

/-! ### Whole-machine rules -/

/-- The invariant of rule R31 and memory's canonical form hold at reset, whatever the parameter FONT is (rules R4,
R34; I = 0 is decision D2), and so at `State.reset`, where FONT has its default. -/
def Obligations.InvariantAtReset : Prop := (∀ font : Font, (State.resetWith font).Inv) ∧ State.reset.Inv

/-- Every step keeps the invariant of rule R31 and memory's canonical form, from every state that has it. -/
def Obligations.StepKeepsInvariant : Prop :=
  ∀ s t : State, s.Inv → step s = .next t → t.Inv

/-- Every list of events keeps the invariant, in any order and with any image and keys (rule R31), so no event
leaves a byte listed outside memory, and no run leaves I, pc or a stack entry out of its range. -/
def Obligations.EventsKeepInvariant : Prop :=
  ∀ (es : List Event) (s : State), s.Inv → (runEvents es s).Inv

/-- The frame of every instruction (rule R8, decision D11): an instruction that answers a next state leaves every
piece of state as it was that its row of the opcode table does not name: registers, I, stack slots, sp, timers,
pixels, keys, and every byte of memory outside the stored ones. -/
def Obligations.FrameOfEveryInstruction : Prop :=
  ∀ (i : Instr) (s t : State), exec i s = .next t → Frame (writes i s) s t

/-- Where every instruction that answers a next state leaves pc (the table of rule R23; the default advance and the
skip distance are those of rule R7). -/
def Obligations.PcOfEveryInstruction : Prop :=
  ∀ (i : Instr) (s t : State), exec i s = .next t → t.pc = pcAfter i s

/-- Tick and Step commute unless the step executes FX07, FX15 or FX18 (rule R192, which marks it derived). -/
def Obligations.TickAndStepCommute : Prop :=
  ∀ s : State, (∀ i, s.nextInstr = some i → usesTimer i = false) →
    (∀ t, step s = .next t → step s.tick = .next t.tick) ∧
    (∀ f, step s = .fault f → step s.tick = .fault f)

/-- There is no error latch and no key-wait latch (rules R32, R188, R198; decision D8): what earlier events returned
changes nothing that a step does. It is about the model's own field `report` (log entry 4). -/
def Obligations.ReportIsNeverRead : Prop :=
  ∀ (s : State) (r : Report), step { s with report := r } = step s

/-- A program cannot observe dead stack slots (rules R24, R25; decision D7): states equal but for the slots at or
above sp step to states equal but for such slots, or to the same error. -/
def Obligations.DeadStackSlotsUnobservable : Prop :=
  ∀ s t : State, EqLive s t →
    (∀ s', step s = .next s' → ∃ t', step t = .next t' ∧ EqLive s' t') ∧
    (∀ f, step s = .fault f → step t = .fault f)

/-- The key-wait accessor (rule R198, decision D27): it says that the next step would wait, and that step changes
nothing (the model's own `report` apart). -/
def Obligations.WaitingAccessor : Prop :=
  (∀ s : State, s.waiting = true ↔ ∃ t, step s = .next t ∧ t.report = .waitingForKey) ∧
  (∀ s : State, s.waiting = true → step s = .next { s with report := .waitingForKey })

/-- A quiescent state (rule R217, decision D28): the instruction at pc is a jump to itself exactly when `quiescent`
says so, and then a step leaves the whole machine state unchanged (the model's own `report` apart). -/
def Obligations.QuiescentStateStays : Prop :=
  (∀ s : State, s.quiescent = true ↔ ∃ nnn : BitVec 12, s.nextInstr = some (.jp nnn) ∧ nnn.toNat = s.pc.toNat) ∧
  (∀ s : State, s.quiescent = true → step s = .next { s with report := .ok })

/-! ### What is no machine state -/

/-- Nothing outside the machine state is state (rules R9, R32). Two states with the same machine state, whatever the
host holds beside it, step to the same machine state and the same outcome, where CXNN at pc is given the same random
byte and every other instruction whatever byte; no other event depends on more than the machine state; and a step
that returns WaitingForKey leaves the machine state as it was (rules R163, R198, decision D27). That the host's side
stands in `State` beside `MachineState` is the model's form (log entries 1 and 4; decisions D8, D19). -/
def Obligations.StepDependsOnMachineState : Prop :=
  (∀ s t : State, s.toMachineState = t.toMachineState →
    (∀ x nn, s.nextInstr = some (.rnd x nn) → Config.rnd s.draws = Config.rnd t.draws) →
    (∀ s', step s = .next s' → ∃ t', step t = .next t' ∧
      t'.toMachineState = s'.toMachineState ∧ t'.report = s'.report) ∧
    (∀ f, step s = .fault f → step t = .fault f)) ∧
  (∀ (e : Event) (s t : State), e ≠ .step → s.toMachineState = t.toMachineState →
    (e.after s).toMachineState = (e.after t).toMachineState) ∧
  (∀ s t : State, step s = .next t → t.report = .waitingForKey → t.toMachineState = s.toMachineState)

/-! ### The parameter FONT -/

/-- FONT is a parameter of the machine (rules R4, R61; decision D18 leaves its bytes open): for every font, memory
after reset holds row r of digit d at 5 d + r, and FX29 with a digit in V[X] points I at the five bytes of that digit;
no list of events, stores to the atlas among them, changes the parameter itself. No byte of the default font is used
(log entry 2). -/
def Obligations.FontIsParameter : Prop :=
  (∀ (font : Font) (d r : Nat), d < 16 → r < 5 →
    some ((State.resetWith font).mem.read (5 * d + r)) = font[5 * d + r]?) ∧
  (∀ (font : Font) (x : Reg) (s : State), s.mem = (State.resetWith font).mem → (s.reg x).toNat < 16 →
    ∃ t, exec (.ldF x) s = .next t ∧
      ∀ r, r < 5 → some (t.mem.read (t.i.toNat + r)) = font[5 * (s.reg x).toNat + r]?) ∧
  (∀ (es : List Event) (s : State), (runEvents es s).mem.font = s.mem.font)
end

