-- ==== Sys2Proof/Laws/Decode.lean ====
section
/-!
SUPPORT. The fields of an encoded word, and a word put together again from its fields.
-/

namespace Sys2Proof

section Fields

variable (f : BitVec 4) (x y : Reg) (n : BitVec 4) (nn : Byte) (nnn : BitVec 12)

@[simp] theorem fieldFamily_formatA : fieldFamily (formatA f nnn) = f := by
  unfold fieldFamily formatA
  rw [BitVec.extractLsb'_append_eq_of_le (by omega)]
  simp

@[simp] theorem fieldNNN_formatA : fieldNNN (formatA f nnn) = nnn := by
  unfold fieldNNN formatA
  rw [BitVec.extractLsb'_append_eq_of_add_le (by omega)]
  simp

@[simp] theorem fieldFamily_formatXI : fieldFamily (formatXI f x nn) = f := by
  unfold fieldFamily formatXI
  rw [BitVec.extractLsb'_append_eq_of_le (by omega), BitVec.extractLsb'_append_eq_of_le (by omega)]
  simp

@[simp] theorem fieldX_formatXI : fieldX (formatXI f x nn) = x := by
  unfold fieldX formatXI
  rw [BitVec.extractLsb'_append_eq_of_le (by omega), BitVec.extractLsb'_append_eq_of_add_le (by omega)]
  simp

@[simp] theorem fieldNN_formatXI : fieldNN (formatXI f x nn) = nn := by
  unfold fieldNN formatXI
  rw [BitVec.extractLsb'_append_eq_of_add_le (by omega)]
  simp

@[simp] theorem fieldFamily_formatXY : fieldFamily (formatXY f x y n) = f := by
  unfold fieldFamily formatXY
  rw [BitVec.extractLsb'_append_eq_of_le (by omega), BitVec.extractLsb'_append_eq_of_le (by omega),
    BitVec.extractLsb'_append_eq_of_le (by omega)]
  simp

@[simp] theorem fieldX_formatXY : fieldX (formatXY f x y n) = x := by
  unfold fieldX formatXY
  rw [BitVec.extractLsb'_append_eq_of_le (by omega), BitVec.extractLsb'_append_eq_of_le (by omega),
    BitVec.extractLsb'_append_eq_of_add_le (by omega)]
  simp

@[simp] theorem fieldY_formatXY : fieldY (formatXY f x y n) = y := by
  unfold fieldY formatXY
  rw [BitVec.extractLsb'_append_eq_of_le (by omega), BitVec.extractLsb'_append_eq_of_add_le (by omega)]
  simp

@[simp] theorem fieldN_formatXY : fieldN (formatXY f x y n) = n := by
  unfold fieldN formatXY
  rw [BitVec.extractLsb'_append_eq_of_add_le (by omega)]
  simp

/-! ### The masks of rule R75 keep the fixed nibbles and clear the others -/

theorem formatA_mask : formatA f nnn &&& 0xF000 = f ++ 0#12 := by
  unfold formatA
  rw [show (0xF000 : Word) = 0xF#4 ++ 0#12 from rfl, BitVec.and_append]
  simp only [show (0xF#4) = BitVec.allOnes 4 from rfl, BitVec.and_allOnes, BitVec.and_zero]

theorem formatXI_mask : formatXI f x nn &&& 0xF000 = f ++ 0#12 := by
  unfold formatXI
  rw [show (0xF000 : Word) = 0xF#4 ++ 0#4 ++ 0#8 from rfl, BitVec.and_append, BitVec.and_append]
  simp only [show (0xF#4) = BitVec.allOnes 4 from rfl, BitVec.and_allOnes, BitVec.and_zero]
  exact (by decide : ∀ f : BitVec 4, f ++ 0#4 ++ 0#8 = f ++ 0#12) f

theorem formatXF_mask : formatXI f x nn &&& 0xF0FF = f ++ 0#4 ++ nn := by
  unfold formatXI
  rw [show (0xF0FF : Word) = 0xF#4 ++ 0#4 ++ 0xFF#8 from rfl, BitVec.and_append, BitVec.and_append]
  simp only [show (0xF#4) = BitVec.allOnes 4 from rfl, show (0xFF#8) = BitVec.allOnes 8 from rfl,
    BitVec.and_allOnes, BitVec.and_zero]

theorem formatXY_mask : formatXY f x y n &&& 0xF00F = f ++ 0#4 ++ 0#4 ++ n := by
  unfold formatXY
  rw [show (0xF00F : Word) = 0xF#4 ++ 0#4 ++ 0#4 ++ 0xF#4 from rfl, BitVec.and_append, BitVec.and_append,
    BitVec.and_append]
  simp only [show (0xF#4) = BitVec.allOnes 4 from rfl, BitVec.and_allOnes, BitVec.and_zero]

theorem formatXYN_mask : formatXY f x y n &&& 0xF000 = f ++ 0#12 := by
  unfold formatXY
  rw [show (0xF000 : Word) = 0xF#4 ++ 0#4 ++ 0#4 ++ 0#4 from rfl, BitVec.and_append, BitVec.and_append,
    BitVec.and_append]
  simp only [show (0xF#4) = BitVec.allOnes 4 from rfl, BitVec.and_allOnes, BitVec.and_zero]
  exact (by decide : ∀ f : BitVec 4, f ++ 0#4 ++ 0#4 ++ 0#4 = f ++ 0#12) f

end Fields

/-! ### A word is its fields -/

section Rebuild

variable (w : Word)

theorem formatA_fields : formatA (fieldFamily w) (fieldNNN w) = w := by
  unfold formatA fieldFamily fieldNNN
  apply BitVec.eq_of_getLsbD_eq
  intro i hi
  simp only [BitVec.getLsbD_append, BitVec.getLsbD_extractLsb']
  interval_cases i <;> simp

theorem formatXI_fields : formatXI (fieldFamily w) (fieldX w) (fieldNN w) = w := by
  unfold formatXI fieldFamily fieldX fieldNN
  apply BitVec.eq_of_getLsbD_eq
  intro i hi
  simp only [BitVec.ofFin_toFin, BitVec.getLsbD_append, BitVec.getLsbD_extractLsb']
  interval_cases i <;> simp

theorem formatXY_fields : formatXY (fieldFamily w) (fieldX w) (fieldY w) (fieldN w) = w := by
  unfold formatXY fieldFamily fieldX fieldY fieldN
  apply BitVec.eq_of_getLsbD_eq
  intro i hi
  simp only [BitVec.ofFin_toFin, BitVec.getLsbD_append, BitVec.getLsbD_extractLsb']
  interval_cases i <;> simp

/-- A word is its two bytes, high byte first (rule R52). -/
@[simp] theorem wordOfBytes_split : wordOfBytes (highByte w) (lowByte w) = w := by
  unfold wordOfBytes highByte lowByte
  apply BitVec.eq_of_getLsbD_eq
  intro i hi
  simp only [BitVec.getLsbD_append, BitVec.getLsbD_extractLsb']
  interval_cases i <;> simp

end Rebuild

/-- Decoding bytes is decoding the word they make (rules R52, R70). -/
theorem decode_cons (w : Word) (rest : List Byte) :
    decode (highByte w :: lowByte w :: rest) =
      match decodeWord w with
      | some i => .ok (i, rest)
      | none => .error (.unknownOpcode w) := by
  cases h : decodeWord w <;> simp only [decode, wordOfBytes_split, h]

end Sys2Proof
end

