-- ==== Sys2Proof/Laws/State.lean ====
section
/-!
SUPPORT. One lemma per field per update of the state, so that no proof unfolds a record update.
-/

namespace Sys2Proof.Machine

variable (s : State)

/-! ### The machine state and the host's side (rule R32) -/

/-- Two states with one machine state differ in the host's side alone. -/
theorem State.eq_of_machine {s t : State} (h : s.toMachineState = t.toMachineState) :
    t = { s with draws := t.draws, report := t.report } := by
  cases t
  simp only at h
  subst h
  rfl

/-- The instruction at pc is a matter of the machine state. -/
theorem State.nextInstr_host (n : Nat) (r : Report) :
    ({ s with draws := n, report := r } : State).nextInstr = s.nextInstr := rfl

/-! ### The state after reset -/

@[simp] theorem State.resetWith_v (f : Font) : (State.resetWith f).v = Vector.replicate 16 0 := rfl
@[simp] theorem State.resetWith_i (f : Font) : (State.resetWith f).i = 0 := rfl
@[simp] theorem State.resetWith_pc (f : Font) : (State.resetWith f).pc = 0x200 := rfl
@[simp] theorem State.resetWith_stack (f : Font) : (State.resetWith f).stack = Vector.replicate 16 0 := rfl
@[simp] theorem State.resetWith_sp (f : Font) : (State.resetWith f).sp = 0 := rfl
@[simp] theorem State.resetWith_dt (f : Font) : (State.resetWith f).dt = 0 := rfl
@[simp] theorem State.resetWith_st (f : Font) : (State.resetWith f).st = 0 := rfl
@[simp] theorem State.resetWith_fb (f : Font) : (State.resetWith f).fb = Vector.replicate 32 0 := rfl
@[simp] theorem State.resetWith_keys (f : Font) : (State.resetWith f).keys = Vector.replicate 16 false := rfl
@[simp] theorem State.resetWith_mem (f : Font) : (State.resetWith f).mem = { font := f, cells := [] } := rfl
@[simp] theorem State.resetWith_draws (f : Font) : (State.resetWith f).draws = 0 := rfl
@[simp] theorem State.resetWith_report (f : Font) : (State.resetWith f).report = .ok := rfl

/-- A reset keeps two things: the parameter FONT and the host's place in the random source (rules R4, R210). -/
theorem State.resetEvent_eq : s.resetEvent = { State.resetWith s.mem.font with draws := s.draws } := rfl

/-! ### setReg -/

@[simp] theorem State.setReg_v (r : Reg) (b : Byte) : (s.setReg r b).v = s.v.set r b := rfl
@[simp] theorem State.setReg_i (r : Reg) (b : Byte) : (s.setReg r b).i = s.i := rfl
@[simp] theorem State.setReg_pc (r : Reg) (b : Byte) : (s.setReg r b).pc = s.pc := rfl
@[simp] theorem State.setReg_stack (r : Reg) (b : Byte) : (s.setReg r b).stack = s.stack := rfl
@[simp] theorem State.setReg_sp (r : Reg) (b : Byte) : (s.setReg r b).sp = s.sp := rfl
@[simp] theorem State.setReg_dt (r : Reg) (b : Byte) : (s.setReg r b).dt = s.dt := rfl
@[simp] theorem State.setReg_st (r : Reg) (b : Byte) : (s.setReg r b).st = s.st := rfl
@[simp] theorem State.setReg_fb (r : Reg) (b : Byte) : (s.setReg r b).fb = s.fb := rfl
@[simp] theorem State.setReg_keys (r : Reg) (b : Byte) : (s.setReg r b).keys = s.keys := rfl
@[simp] theorem State.setReg_mem (r : Reg) (b : Byte) : (s.setReg r b).mem = s.mem := rfl
@[simp] theorem State.setReg_draws (r : Reg) (b : Byte) : (s.setReg r b).draws = s.draws := rfl
@[simp] theorem State.setReg_report (r : Reg) (b : Byte) : (s.setReg r b).report = s.report := rfl

/-! ### setI -/

@[simp] theorem State.setI_v (w : Word) : (s.setI w).v = s.v := rfl
@[simp] theorem State.setI_i (w : Word) : (s.setI w).i = w := rfl
@[simp] theorem State.setI_pc (w : Word) : (s.setI w).pc = s.pc := rfl
@[simp] theorem State.setI_stack (w : Word) : (s.setI w).stack = s.stack := rfl
@[simp] theorem State.setI_sp (w : Word) : (s.setI w).sp = s.sp := rfl
@[simp] theorem State.setI_dt (w : Word) : (s.setI w).dt = s.dt := rfl
@[simp] theorem State.setI_st (w : Word) : (s.setI w).st = s.st := rfl
@[simp] theorem State.setI_fb (w : Word) : (s.setI w).fb = s.fb := rfl
@[simp] theorem State.setI_keys (w : Word) : (s.setI w).keys = s.keys := rfl
@[simp] theorem State.setI_mem (w : Word) : (s.setI w).mem = s.mem := rfl
@[simp] theorem State.setI_draws (w : Word) : (s.setI w).draws = s.draws := rfl
@[simp] theorem State.setI_report (w : Word) : (s.setI w).report = s.report := rfl

/-! ### setDt -/

@[simp] theorem State.setDt_v (b : Byte) : (s.setDt b).v = s.v := rfl
@[simp] theorem State.setDt_i (b : Byte) : (s.setDt b).i = s.i := rfl
@[simp] theorem State.setDt_pc (b : Byte) : (s.setDt b).pc = s.pc := rfl
@[simp] theorem State.setDt_stack (b : Byte) : (s.setDt b).stack = s.stack := rfl
@[simp] theorem State.setDt_sp (b : Byte) : (s.setDt b).sp = s.sp := rfl
@[simp] theorem State.setDt_dt (b : Byte) : (s.setDt b).dt = b := rfl
@[simp] theorem State.setDt_st (b : Byte) : (s.setDt b).st = s.st := rfl
@[simp] theorem State.setDt_fb (b : Byte) : (s.setDt b).fb = s.fb := rfl
@[simp] theorem State.setDt_keys (b : Byte) : (s.setDt b).keys = s.keys := rfl
@[simp] theorem State.setDt_mem (b : Byte) : (s.setDt b).mem = s.mem := rfl
@[simp] theorem State.setDt_draws (b : Byte) : (s.setDt b).draws = s.draws := rfl
@[simp] theorem State.setDt_report (b : Byte) : (s.setDt b).report = s.report := rfl

/-! ### setSt -/

@[simp] theorem State.setSt_v (b : Byte) : (s.setSt b).v = s.v := rfl
@[simp] theorem State.setSt_i (b : Byte) : (s.setSt b).i = s.i := rfl
@[simp] theorem State.setSt_pc (b : Byte) : (s.setSt b).pc = s.pc := rfl
@[simp] theorem State.setSt_stack (b : Byte) : (s.setSt b).stack = s.stack := rfl
@[simp] theorem State.setSt_sp (b : Byte) : (s.setSt b).sp = s.sp := rfl
@[simp] theorem State.setSt_dt (b : Byte) : (s.setSt b).dt = s.dt := rfl
@[simp] theorem State.setSt_st (b : Byte) : (s.setSt b).st = b := rfl
@[simp] theorem State.setSt_fb (b : Byte) : (s.setSt b).fb = s.fb := rfl
@[simp] theorem State.setSt_keys (b : Byte) : (s.setSt b).keys = s.keys := rfl
@[simp] theorem State.setSt_mem (b : Byte) : (s.setSt b).mem = s.mem := rfl
@[simp] theorem State.setSt_draws (b : Byte) : (s.setSt b).draws = s.draws := rfl
@[simp] theorem State.setSt_report (b : Byte) : (s.setSt b).report = s.report := rfl

/-! ### setFb -/

@[simp] theorem State.setFb_v (fb : Framebuffer) : (s.setFb fb).v = s.v := rfl
@[simp] theorem State.setFb_i (fb : Framebuffer) : (s.setFb fb).i = s.i := rfl
@[simp] theorem State.setFb_pc (fb : Framebuffer) : (s.setFb fb).pc = s.pc := rfl
@[simp] theorem State.setFb_stack (fb : Framebuffer) : (s.setFb fb).stack = s.stack := rfl
@[simp] theorem State.setFb_sp (fb : Framebuffer) : (s.setFb fb).sp = s.sp := rfl
@[simp] theorem State.setFb_dt (fb : Framebuffer) : (s.setFb fb).dt = s.dt := rfl
@[simp] theorem State.setFb_st (fb : Framebuffer) : (s.setFb fb).st = s.st := rfl
@[simp] theorem State.setFb_fb (fb : Framebuffer) : (s.setFb fb).fb = fb := rfl
@[simp] theorem State.setFb_keys (fb : Framebuffer) : (s.setFb fb).keys = s.keys := rfl
@[simp] theorem State.setFb_mem (fb : Framebuffer) : (s.setFb fb).mem = s.mem := rfl
@[simp] theorem State.setFb_draws (fb : Framebuffer) : (s.setFb fb).draws = s.draws := rfl
@[simp] theorem State.setFb_report (fb : Framebuffer) : (s.setFb fb).report = s.report := rfl

/-! ### setMem -/

@[simp] theorem State.setMem_v (m : Memory) : (s.setMem m).v = s.v := rfl
@[simp] theorem State.setMem_i (m : Memory) : (s.setMem m).i = s.i := rfl
@[simp] theorem State.setMem_pc (m : Memory) : (s.setMem m).pc = s.pc := rfl
@[simp] theorem State.setMem_stack (m : Memory) : (s.setMem m).stack = s.stack := rfl
@[simp] theorem State.setMem_sp (m : Memory) : (s.setMem m).sp = s.sp := rfl
@[simp] theorem State.setMem_dt (m : Memory) : (s.setMem m).dt = s.dt := rfl
@[simp] theorem State.setMem_st (m : Memory) : (s.setMem m).st = s.st := rfl
@[simp] theorem State.setMem_fb (m : Memory) : (s.setMem m).fb = s.fb := rfl
@[simp] theorem State.setMem_keys (m : Memory) : (s.setMem m).keys = s.keys := rfl
@[simp] theorem State.setMem_mem (m : Memory) : (s.setMem m).mem = m := rfl
@[simp] theorem State.setMem_draws (m : Memory) : (s.setMem m).draws = s.draws := rfl
@[simp] theorem State.setMem_report (m : Memory) : (s.setMem m).report = s.report := rfl

/-! ### drawn -/

@[simp] theorem State.drawn_v : (s.drawn).v = s.v := rfl
@[simp] theorem State.drawn_i : (s.drawn).i = s.i := rfl
@[simp] theorem State.drawn_pc : (s.drawn).pc = s.pc := rfl
@[simp] theorem State.drawn_stack : (s.drawn).stack = s.stack := rfl
@[simp] theorem State.drawn_sp : (s.drawn).sp = s.sp := rfl
@[simp] theorem State.drawn_dt : (s.drawn).dt = s.dt := rfl
@[simp] theorem State.drawn_st : (s.drawn).st = s.st := rfl
@[simp] theorem State.drawn_fb : (s.drawn).fb = s.fb := rfl
@[simp] theorem State.drawn_keys : (s.drawn).keys = s.keys := rfl
@[simp] theorem State.drawn_mem : (s.drawn).mem = s.mem := rfl
@[simp] theorem State.drawn_draws : (s.drawn).draws = s.draws + 1 := rfl
@[simp] theorem State.drawn_report : (s.drawn).report = s.report := rfl

/-! ### push -/

@[simp] theorem State.push_v (t : Word) (h : s.sp.val < Config.stackDepth) : (s.push t h).v = s.v := rfl
@[simp] theorem State.push_i (t : Word) (h : s.sp.val < Config.stackDepth) : (s.push t h).i = s.i := rfl
@[simp] theorem State.push_pc (t : Word) (h : s.sp.val < Config.stackDepth) : (s.push t h).pc = s.pc := rfl
@[simp] theorem State.push_stack (t : Word) (h : s.sp.val < Config.stackDepth) :
    (s.push t h).stack = s.stack.set s.sp.val t h := rfl
@[simp] theorem State.push_sp (t : Word) (h : s.sp.val < Config.stackDepth) :
    (s.push t h).sp = ⟨s.sp.val + 1, Nat.succ_lt_succ h⟩ := rfl
@[simp] theorem State.push_dt (t : Word) (h : s.sp.val < Config.stackDepth) : (s.push t h).dt = s.dt := rfl
@[simp] theorem State.push_st (t : Word) (h : s.sp.val < Config.stackDepth) : (s.push t h).st = s.st := rfl
@[simp] theorem State.push_fb (t : Word) (h : s.sp.val < Config.stackDepth) : (s.push t h).fb = s.fb := rfl
@[simp] theorem State.push_keys (t : Word) (h : s.sp.val < Config.stackDepth) : (s.push t h).keys = s.keys := rfl
@[simp] theorem State.push_mem (t : Word) (h : s.sp.val < Config.stackDepth) : (s.push t h).mem = s.mem := rfl
@[simp] theorem State.push_draws (t : Word) (h : s.sp.val < Config.stackDepth) : (s.push t h).draws = s.draws := rfl
@[simp] theorem State.push_report (t : Word) (h : s.sp.val < Config.stackDepth) :
    (s.push t h).report = s.report := rfl

/-! ### pop -/

@[simp] theorem State.pop_v : (s.pop).v = s.v := rfl
@[simp] theorem State.pop_i : (s.pop).i = s.i := rfl
@[simp] theorem State.pop_pc : (s.pop).pc = s.pc := rfl
@[simp] theorem State.pop_stack : (s.pop).stack = s.stack := rfl
@[simp] theorem State.pop_sp : (s.pop).sp = ⟨s.sp.val - 1, Nat.lt_of_le_of_lt (Nat.sub_le _ _) s.sp.isLt⟩ := rfl
@[simp] theorem State.pop_dt : (s.pop).dt = s.dt := rfl
@[simp] theorem State.pop_st : (s.pop).st = s.st := rfl
@[simp] theorem State.pop_fb : (s.pop).fb = s.fb := rfl
@[simp] theorem State.pop_keys : (s.pop).keys = s.keys := rfl
@[simp] theorem State.pop_mem : (s.pop).mem = s.mem := rfl
@[simp] theorem State.pop_draws : (s.pop).draws = s.draws := rfl
@[simp] theorem State.pop_report : (s.pop).report = s.report := rfl

/-! ### loadRegs -/

@[simp] theorem State.loadRegs_v (x : Reg) :
    (s.loadRegs x).v = Vector.ofFn (fun r => if r ≤ x then s.mem.read (ea s.i r.val) else s.reg r) := rfl
@[simp] theorem State.loadRegs_i (x : Reg) : (s.loadRegs x).i = s.i := rfl
@[simp] theorem State.loadRegs_pc (x : Reg) : (s.loadRegs x).pc = s.pc := rfl
@[simp] theorem State.loadRegs_stack (x : Reg) : (s.loadRegs x).stack = s.stack := rfl
@[simp] theorem State.loadRegs_sp (x : Reg) : (s.loadRegs x).sp = s.sp := rfl
@[simp] theorem State.loadRegs_dt (x : Reg) : (s.loadRegs x).dt = s.dt := rfl
@[simp] theorem State.loadRegs_st (x : Reg) : (s.loadRegs x).st = s.st := rfl
@[simp] theorem State.loadRegs_fb (x : Reg) : (s.loadRegs x).fb = s.fb := rfl
@[simp] theorem State.loadRegs_keys (x : Reg) : (s.loadRegs x).keys = s.keys := rfl
@[simp] theorem State.loadRegs_mem (x : Reg) : (s.loadRegs x).mem = s.mem := rfl
@[simp] theorem State.loadRegs_draws (x : Reg) : (s.loadRegs x).draws = s.draws := rfl
@[simp] theorem State.loadRegs_report (x : Reg) : (s.loadRegs x).report = s.report := rfl

/-! ### setKey -/

@[simp] theorem State.setKey_v (k : KeyIndex) (p : Bool) : (s.setKey k p).v = s.v := rfl
@[simp] theorem State.setKey_i (k : KeyIndex) (p : Bool) : (s.setKey k p).i = s.i := rfl
@[simp] theorem State.setKey_pc (k : KeyIndex) (p : Bool) : (s.setKey k p).pc = s.pc := rfl
@[simp] theorem State.setKey_stack (k : KeyIndex) (p : Bool) : (s.setKey k p).stack = s.stack := rfl
@[simp] theorem State.setKey_sp (k : KeyIndex) (p : Bool) : (s.setKey k p).sp = s.sp := rfl
@[simp] theorem State.setKey_dt (k : KeyIndex) (p : Bool) : (s.setKey k p).dt = s.dt := rfl
@[simp] theorem State.setKey_st (k : KeyIndex) (p : Bool) : (s.setKey k p).st = s.st := rfl
@[simp] theorem State.setKey_fb (k : KeyIndex) (p : Bool) : (s.setKey k p).fb = s.fb := rfl
@[simp] theorem State.setKey_keys (k : KeyIndex) (p : Bool) : (s.setKey k p).keys = s.keys.set k p := rfl
@[simp] theorem State.setKey_mem (k : KeyIndex) (p : Bool) : (s.setKey k p).mem = s.mem := rfl
@[simp] theorem State.setKey_draws (k : KeyIndex) (p : Bool) : (s.setKey k p).draws = s.draws := rfl
@[simp] theorem State.setKey_report (k : KeyIndex) (p : Bool) : (s.setKey k p).report = s.report := rfl

/-! ### tick -/

@[simp] theorem State.tick_v : (s.tick).v = s.v := rfl
@[simp] theorem State.tick_i : (s.tick).i = s.i := rfl
@[simp] theorem State.tick_pc : (s.tick).pc = s.pc := rfl
@[simp] theorem State.tick_stack : (s.tick).stack = s.stack := rfl
@[simp] theorem State.tick_sp : (s.tick).sp = s.sp := rfl
@[simp] theorem State.tick_dt : (s.tick).dt = countDown s.dt := rfl
@[simp] theorem State.tick_st : (s.tick).st = countDown s.st := rfl
@[simp] theorem State.tick_fb : (s.tick).fb = s.fb := rfl
@[simp] theorem State.tick_keys : (s.tick).keys = s.keys := rfl
@[simp] theorem State.tick_mem : (s.tick).mem = s.mem := rfl
@[simp] theorem State.tick_draws : (s.tick).draws = s.draws := rfl
@[simp] theorem State.tick_report : (s.tick).report = s.report := rfl

end Sys2Proof.Machine
end

