-- ==== Sys2Proof/Laws/Registers.lean ====
section
/-!
SUPPORT. Reading a register, a key or a pixel after an update.
-/

namespace Sys2Proof.Machine

variable (s : State)

theorem State.reg_setReg (x r : Reg) (b : Byte) :
    (s.setReg x b).reg r = if r = x then b else s.reg r := by
  simp only [State.reg, State.setReg_v, Fin.getElem_fin, Vector.getElem_set, Fin.val_inj]
  simp only [eq_comm]

@[simp] theorem State.reg_setReg_self (x : Reg) (b : Byte) : (s.setReg x b).reg x = b := by
  simp [State.reg_setReg]

theorem State.reg_setReg_of_ne {x r : Reg} (b : Byte) (h : r ≠ x) : (s.setReg x b).reg r = s.reg r := by
  simp [State.reg_setReg, h]

/-- Registers are read from the field `v` alone. -/
theorem State.reg_congr {s t : State} (h : t.v = s.v) (r : Reg) : t.reg r = s.reg r := by
  simp [State.reg, h]

@[simp] theorem State.reg_setI (w : Word) (r : Reg) : (s.setI w).reg r = s.reg r := rfl
@[simp] theorem State.reg_setDt (b : Byte) (r : Reg) : (s.setDt b).reg r = s.reg r := rfl
@[simp] theorem State.reg_setSt (b : Byte) (r : Reg) : (s.setSt b).reg r = s.reg r := rfl
@[simp] theorem State.reg_setFb (fb : Framebuffer) (r : Reg) : (s.setFb fb).reg r = s.reg r := rfl
@[simp] theorem State.reg_setMem (m : Memory) (r : Reg) : (s.setMem m).reg r = s.reg r := rfl
@[simp] theorem State.reg_drawn (r : Reg) : s.drawn.reg r = s.reg r := rfl
@[simp] theorem State.reg_push (w : Word) (h) (r : Reg) : (s.push w h).reg r = s.reg r := rfl
@[simp] theorem State.reg_pop (r : Reg) : s.pop.reg r = s.reg r := rfl

@[simp] theorem State.reg_end (w : Word) (p : Report) (r : Reg) :
    ({ s with pc := w, report := p } : State).reg r = s.reg r := rfl
@[simp] theorem State.reg_report (p : Report) (r : Reg) : ({ s with report := p } : State).reg r = s.reg r := rfl

/-- FX65 loads V0 to VX and leaves the rest. -/
theorem State.reg_loadRegs (x r : Reg) :
    (s.loadRegs x).reg r = if r ≤ x then s.mem.read (ea s.i r.val) else s.reg r := by
  simp [State.reg]

theorem State.key_setKey (k j : KeyIndex) (p : Bool) :
    (s.setKey k p).key j = if j = k then p else s.key j := by
  simp only [State.key, State.setKey_keys, Fin.getElem_fin, Vector.getElem_set, Fin.val_inj]
  simp only [eq_comm]

/-- The result of an arithmetic instruction with a flag: VF holds the flag, V[X] the result unless X = 15. -/
theorem State.reg_setReg_setFlag (x r : Reg) (b f : Byte) :
    ((s.setReg x b).setFlag f).reg r = if r = flagReg then f else if r = x then b else s.reg r := by
  simp [State.setFlag, State.reg_setReg]

/-- What the lowest pressed key is (rule R163). -/
theorem State.lowestKey_eq_none : s.lowestKey = none ↔ ∀ k, s.key k = false := by
  simp [State.lowestKey]

theorem State.lowestKey_eq_some (k : KeyIndex) :
    s.lowestKey = some k ↔ s.key k = true ∧ ∀ j, j < k → s.key j = false := by
  have hd : ∀ f : KeyIndex → Bool, (List.finRange 16).find? f = some k ↔ f k = true ∧ ∀ j, j < k → f j = false := by
    intro f
    rw [List.find?_eq_some_iff_getElem]
    constructor
    · rintro ⟨hk, i, hi, hik, hlt⟩
      refine ⟨hk, fun j hj => ?_⟩
      have hi' : i = k.val := by simpa [Fin.ext_iff] using hik
      have := hlt j.val (hi' ▸ Fin.lt_def.mp hj)
      simpa using this
    · rintro ⟨hk, hlt⟩
      refine ⟨hk, k.val, by simp, by simp, fun j hj => ?_⟩
      simpa using hlt ⟨j, by omega⟩ hj
  exact hd s.key

/-! ### The stack -/

/-- A pop after a push gives back sp (rules R100, R102). -/
theorem State.pop_push_sp (t : Word) (h : s.sp.val < Config.stackDepth) : (s.push t h).pop.sp = s.sp := by
  simp

/-- The entry a pop reads after a push is the one pushed. -/
theorem State.top_push (t : Word) (h : s.sp.val < Config.stackDepth) : (s.push t h).top = t := by
  simp [State.top]

theorem State.push_stack_getElem (t : Word) (h : s.sp.val < Config.stackDepth) (k : Fin 16) :
    (s.push t h).stack[k] = if k.val = s.sp.val then t else s.stack[k] := by
  simp only [State.push_stack, Fin.getElem_fin, Vector.getElem_set]
  simp only [eq_comm]

end Sys2Proof.Machine
end

