-- ==== Sys2Proof/Laws/Display.lean ====
section
/-!
SUPPORT. What each drawing operation does to a pixel (rules R150, R151).
-/

namespace Sys2Proof.Machine

@[simp] theorem Framebuffer.pixel_clear (x : Fin 64) (y : Fin 32) :
    Framebuffer.pixel Framebuffer.clear x y = false := by
  simp [Framebuffer.pixel, Framebuffer.clear]

theorem Framebuffer.pixel_toggle (fb : Framebuffer) (x x' : Fin 64) (y y' : Fin 32) :
    Framebuffer.pixel (Framebuffer.toggle fb x y) x' y' =
      (Framebuffer.pixel fb x' y' ^^ (x == x' && y == y')) := by
  unfold Framebuffer.pixel Framebuffer.toggle
  by_cases hy : y = y'
  · subst hy
    have hx := x.isLt
    by_cases hxx : x = x'
    · simp [hxx]
    · have : (x == x') = false := by simp [hxx]
      have : ¬ x' = x := fun h => hxx h.symm
      simp [*, Fin.val_inj]
  · have : (y == y') = false := by simp [hy]
    simp [*, Fin.val_inj]

/-- Two framebuffers with the same pixels are equal. -/
theorem Framebuffer.ext_pixel {fb fb' : Framebuffer}
    (h : ∀ x y, Framebuffer.pixel fb x y = Framebuffer.pixel fb' x y) : fb = fb' := by
  apply Vector.ext
  intro j hj
  apply BitVec.eq_of_getLsbD_eq
  intro k hk
  exact h ⟨k, hk⟩ ⟨j, hj⟩

/-- Plotting inverts one pixel and notes whether it was 1. -/
theorem Canvas.pixel_plot (c : Canvas) (x x' : Fin 64) (y y' : Fin 32) :
    Framebuffer.pixel (Canvas.plot c x y).1 x' y' = (Framebuffer.pixel c.1 x' y' ^^ (x == x' && y == y')) :=
  Framebuffer.pixel_toggle _ _ _ _ _

theorem Canvas.collided_plot (c : Canvas) (x : Fin 64) (y : Fin 32) :
    (Canvas.plot c x y).2 = (c.2 || Framebuffer.pixel c.1 x y) := rfl

/-- The columns of one sprite row are distinct (rule R151, case (d)). -/
theorem wrapColumn_injective {x0 j k : Nat} (hj : j < 64) (hk : k < 64)
    (h : wrapColumn (x0 + j) = wrapColumn (x0 + k)) : j = k := by
  simp only [wrapColumn, Fin.mk.injEq] at h
  omega

/-- The rows of one sprite are distinct (rule R151, case (d)). -/
theorem wrapRow_injective {y0 j k : Nat} (hj : j < 32) (hk : k < 32)
    (h : wrapRow (y0 + j) = wrapRow (y0 + k)) : j = k := by
  simp only [wrapRow, Fin.mk.injEq] at h
  omega

end Sys2Proof.Machine
end

