-- ==== Sys2Proof/Laws/Memory.lean ====
section
/-!
SUPPORT. Memory: what a read gives after each write operation, and that every write keeps the canonical form.
-/

namespace Sys2Proof.Machine

namespace Memory

/-! ### The list of cells -/

theorem lookup_cons (c : Host.Cell) (l : List Host.Cell) (a : Nat) :
    lookupCell (c :: l) a = if c.1 = a then some c.2 else lookupCell l a := rfl

theorem lookup_erase (l : List Host.Cell) (a b : Nat) :
    lookupCell (eraseCell l a) b = if b = a then none else lookupCell l b := by
  induction l with
  | nil => simp [eraseCell, lookupCell]
  | cons c l ih =>
    simp only [eraseCell] at ih ⊢
    by_cases hc : c.1 = a
    · rw [List.filter_cons_of_neg (by simp [hc]), ih, lookup_cons]
      by_cases hb : b = a
      · simp [hb]
      · simp [hb, hc, Ne.symm hb]
    · rw [List.filter_cons_of_pos (by simp [hc]), lookup_cons, ih, lookup_cons]
      by_cases hb : c.1 = b
      · have : b ≠ a := fun h => hc (hb.trans h)
        simp [hb, this]
      · simp [hb]

theorem lookup_insert (l : List Host.Cell) (a b : Nat) (v : Byte) :
    lookupCell (insertCell l a v) b = if b = a then some v else lookupCell l b := by
  induction l with
  | nil => simp [insertCell, lookupCell, eq_comm]
  | cons c l ih =>
    simp only [insertCell]
    split
    · rw [lookup_cons]
      by_cases hb : b = a
      · simp [hb]
      · simp [hb, Ne.symm hb]
    · split
      · rename_i h
        simp only [lookup_cons]
        by_cases hb : b = a
        · simp [hb]
        · simp [hb, Ne.symm hb, ← h]
      · rename_i h
        rw [lookup_cons, ih, lookup_cons]
        by_cases hb : b = a
        · simp [hb, Ne.symm h]
        · simp [hb]

theorem mem_insertCell {l : List Host.Cell} {a : Nat} {v : Byte} {c : Host.Cell} (h : c ∈ insertCell l a v) :
    c = (a, v) ∨ c ∈ l := by
  induction l with
  | nil => simpa [insertCell] using h
  | cons d l ih =>
    simp only [insertCell] at h
    split at h
    · simpa using h
    · split at h
      · rcases List.mem_cons.mp h with h | h
        · exact .inl h
        · exact .inr (List.mem_cons_of_mem _ h)
      · rcases List.mem_cons.mp h with h | h
        · exact .inr (by simp [h])
        · exact (ih h).imp id (List.mem_cons_of_mem _)

theorem pairwise_insertCell {l : List Host.Cell} (a : Nat) (v : Byte) (hp : l.Pairwise (fun c d => c.1 < d.1)) :
    (insertCell l a v).Pairwise (fun c d => c.1 < d.1) := by
  induction l with
  | nil => simp [insertCell]
  | cons d l ih =>
    rw [List.pairwise_cons] at hp
    simp only [insertCell]
    split
    · rename_i hlt
      refine List.pairwise_cons.mpr ⟨fun c hc => ?_, List.pairwise_cons.mpr hp⟩
      rcases List.mem_cons.mp hc with rfl | hc
      · exact hlt
      · exact Nat.lt_trans hlt (hp.1 c hc)
    · split
      · rename_i heq
        refine List.pairwise_cons.mpr ⟨fun c hc => ?_, hp.2⟩
        simpa [heq] using hp.1 c hc
      · rename_i h1 h2
        refine List.pairwise_cons.mpr ⟨fun c hc => ?_, ih hp.2⟩
        rcases mem_insertCell hc with rfl | hc
        · show d.1 < a
          omega
        · exact hp.1 c hc

/-! ### FONT: no memory operation changes it (rule R4) -/

@[simp] theorem font_write (m : Memory) (a : Nat) (v : Byte) : (m.write a v).font = m.font := rfl

@[simp] theorem resetByte_write (m : Memory) (a : Nat) (v : Byte) (b : Nat) :
    (m.write a v).resetByte b = m.resetByte b := rfl

@[simp] theorem font_writeBytes (m : Memory) (a : Nat) (bs : List Byte) :
    (Memory.writeBytes m a bs).font = m.font := by
  induction bs generalizing m a with
  | nil => rfl
  | cons b bs ih => rw [Memory.writeBytes, ih, font_write]

@[simp] theorem font_writeBlock (m : Memory) (i : Word) (k : Nat) (bs : List Byte) :
    (Memory.writeBlock m i k bs).font = m.font := by
  induction bs generalizing m k with
  | nil => rfl
  | cons b bs ih => rw [Memory.writeBlock, ih, font_write]

/-! ### Reads and writes -/

/-- Memory that lists nothing reads as its reset contents (rule R34). -/
@[simp] theorem read_nil (f : Font) (a : Nat) :
    ({ font := f, cells := [] } : Memory).read a = if h : a < Config.fontBytes then f[a] else 0 := rfl

/-- A read after a write: the byte written at its address, the old byte elsewhere (rule R56). -/
theorem read_write (m : Memory) (a b : Nat) (v : Byte) :
    (Memory.write m a v).read b = if b = a then v else m.read b := by
  unfold Memory.read
  rw [resetByte_write]
  unfold Memory.write
  split
  · rename_i h
    rw [lookup_erase]
    by_cases hb : b = a <;> simp [hb, h]
  · rw [lookup_insert]
    by_cases hb : b = a <;> simp [hb]

theorem wf_nil (f : Font) : Memory.wf { font := f, cells := [] } :=
  ⟨List.Pairwise.nil, fun _ h => absurd h List.not_mem_nil⟩

/-- A write inside memory keeps the canonical form. -/
theorem wf_write {m : Memory} {a : Nat} (v : Byte) (ha : a < Config.memBytes) (h : m.wf) :
    (Memory.write m a v).wf := by
  unfold Memory.write
  split
  · exact ⟨h.1.filter _, fun c hc => h.2 c (List.mem_filter.mp hc).1⟩
  · rename_i hv
    refine ⟨pairwise_insertCell a v h.1, fun c hc => ?_⟩
    rcases mem_insertCell hc with rfl | hc
    · exact ⟨ha, hv⟩
    · exact h.2 c hc

theorem wf_writeBytes {m : Memory} {a : Nat} {bs : List Byte} (ha : a + bs.length ≤ Config.memBytes)
    (h : m.wf) : (Memory.writeBytes m a bs).wf := by
  induction bs generalizing m a with
  | nil => exact h
  | cons b bs ih =>
    simp only [List.length_cons] at ha
    exact ih (by omega) (wf_write b (by omega) h)

/-- What `Load` writes reads back, and nothing else changes (rule R197). -/
theorem read_writeBytes (m : Memory) (a b : Nat) (bs : List Byte) :
    (Memory.writeBytes m a bs).read b =
      if h : a ≤ b ∧ b - a < bs.length then bs[b - a]'h.2 else m.read b := by
  induction bs generalizing m a with
  | nil => simp [Memory.writeBytes]
  | cons c bs ih =>
    rw [Memory.writeBytes, ih]
    by_cases h : a + 1 ≤ b ∧ b - (a + 1) < bs.length
    · have h' : a ≤ b ∧ b - a < (c :: bs).length := by simp; omega
      rw [dif_pos h, dif_pos h']
      have : b - a = (b - (a + 1)) + 1 := by omega
      simp [this]
    · rw [dif_neg h, read_write]
      by_cases hb : b = a
      · subst hb; simp
      · have h' : ¬ (a ≤ b ∧ b - a < (c :: bs).length) := by simp; omega
        rw [dif_neg h', if_neg hb]

theorem ea_lt (i : Word) (k : Nat) : ea i k < Config.memBytes := Nat.mod_lt _ (by decide)

/-- The addresses of one block are distinct (rule R54). -/
theorem ea_injective {i : Word} {j k : Nat} (hj : j < Config.memBytes) (hk : k < Config.memBytes)
    (h : ea i j = ea i k) : j = k := by
  simp only [ea, Config.memBytes] at *
  omega

theorem wf_writeBlock {m : Memory} (i : Word) (k : Nat) (bs : List Byte) (h : m.wf) :
    (Memory.writeBlock m i k bs).wf := by
  induction bs generalizing m k with
  | nil => exact h
  | cons b bs ih => exact ih _ (wf_write b (ea_lt i k) h)

/-- A block store leaves every address outside the block alone. -/
theorem read_writeBlock_outside (m : Memory) (i : Word) (k : Nat) (bs : List Byte) (a : Nat)
    (ha : ∀ j, k ≤ j → j < k + bs.length → a ≠ ea i j) : (Memory.writeBlock m i k bs).read a = m.read a := by
  induction bs generalizing m k with
  | nil => rfl
  | cons b bs ih =>
    rw [Memory.writeBlock, ih, read_write, if_neg (ha k (by omega) (by simp))]
    intro j h1 h2
    exact ha j (by omega) (by simp; omega)

/-- A block store puts its j-th byte at ea(k + j). -/
theorem read_writeBlock_inside (m : Memory) (i : Word) (k : Nat) (bs : List Byte) (j : Nat)
    (hj : j < bs.length) (hk : k + bs.length ≤ Config.memBytes) :
    (Memory.writeBlock m i k bs).read (ea i (k + j)) = bs[j] := by
  induction bs generalizing m k j with
  | nil => simp at hj
  | cons b bs ih =>
    simp only [List.length_cons] at hj hk
    rw [Memory.writeBlock]
    cases j with
    | zero =>
      rw [read_writeBlock_outside, Nat.add_zero, read_write, if_pos rfl, List.getElem_cons_zero]
      intro l h1 h2 he
      have := ea_injective (by omega) (by omega) he
      omega
    | succ j =>
      rw [show k + (j + 1) = (k + 1) + j by omega, ih _ _ _ (by omega) (by omega), List.getElem_cons_succ]

end Memory

end Sys2Proof.Machine
end

