-- ==== Sys2Proof/Laws/Ops.lean ====
section
/-!
SUPPORT. One lemma per shared operation of a step, saying everything it answers.
-/

namespace Sys2Proof.Machine

variable {s t : State}

theorem State.finish_eq (w : Word) : s.finish w = .next { s with pc := w, report := .ok } := rfl

theorem State.advance_eq : s.advance = .next { s with pc := s.pc + 2, report := .ok } := rfl

theorem State.skipIf_eq (c : Bool) :
    s.skipIf c = .next { s with pc := if c then s.pc + 4 else s.pc + 2, report := .ok } := rfl

theorem State.keepWaiting_eq : s.keepWaiting = .next { s with report := .waitingForKey } := rfl

theorem State.unknownOpcode_eq (w : Word) :
    s.unknownOpcode w = .next { s with pc := s.pc + 2, report := .unknownOpcode s.pc w } := rfl

theorem State.raise_eq (f : Fault) : s.raise f = .fault f := rfl

theorem State.finish_next (w : Word) : s.finish w = .next t ↔ t = { s with pc := w, report := .ok } := by
  rw [State.finish_eq]
  exact ⟨fun h => by injection h with h; exact h.symm, fun h => by rw [h]⟩

theorem State.advance_next : s.advance = .next t ↔ t = { s with pc := s.pc + 2, report := .ok } :=
  State.finish_next _

theorem State.skipIf_next (c : Bool) :
    s.skipIf c = .next t ↔ t = { s with pc := if c then s.pc + 4 else s.pc + 2, report := .ok } :=
  State.finish_next _

theorem State.keepWaiting_next : s.keepWaiting = .next t ↔ t = { s with report := .waitingForKey } := by
  rw [State.keepWaiting_eq]
  exact ⟨fun h => by injection h with h; exact h.symm, fun h => by rw [h]⟩

theorem State.unknownOpcode_next (w : Word) :
    s.unknownOpcode w = .next t ↔ t = { s with pc := s.pc + 2, report := .unknownOpcode s.pc w } := by
  rw [State.unknownOpcode_eq]
  exact ⟨fun h => by injection h with h; exact h.symm, fun h => by rw [h]⟩

theorem State.raise_next (f : Fault) : s.raise f ≠ .next t := by simp [State.raise_eq]

/-- An arithmetic instruction with a flag: the result to V[X], the flag to VF last (rule R131). -/
theorem State.resultAndFlag_eq (x : Reg) (b f : Byte) :
    s.resultAndFlag x b f =
      .next { s with v := (s.v.set x b).set flagReg f, pc := s.pc + 2, report := .ok } := rfl

/-! ### Fetch and step -/

theorem State.fetch_eq_none : s.fetch = none ↔ s.pc.toNat + 1 > 0xFFF := by
  unfold State.fetch; split <;> simp_all

theorem State.fetch_eq_some (w : Word) :
    s.fetch = some w ↔ s.pc.toNat + 1 ≤ 0xFFF ∧ s.mem.readWord s.pc.toNat = w := by
  unfold State.fetch; split <;> simp_all

/-- Everything a step can do (rules R7, R186): a fetch out of bounds, an unrecognised word, or the decoded
instruction. -/
theorem step_cases (s : State) :
    (s.fetch = none ∧ step s = .fault (.invalidAddress s.pc)) ∨
    (∃ w, s.fetch = some w ∧ decodeWord w = none ∧ step s = s.unknownOpcode w) ∨
    (∃ w i, s.fetch = some w ∧ decodeWord w = some i ∧ step s = exec i s) := by
  cases hf : s.fetch with
  | none => exact .inl ⟨rfl, by simp [step, hf, State.raise]⟩
  | some w =>
    cases hd : decodeWord w with
    | none => exact .inr (.inl ⟨w, rfl, hd, by simp [step, hf, hd]⟩)
    | some i => exact .inr (.inr ⟨w, i, rfl, hd, by simp [step, hf, hd]⟩)

/-- No meaning refuses. -/
theorem exec_not_refused (i : Instr) (s : State) (r : Refusal) : exec i s ≠ .refused r := by
  cases i with
  | ret => simp only [exec, execRet]; split <;> simp [State.raise, State.finish]
  | call nnn => simp only [exec, execCall]; split <;> simp [State.raise, State.finish]
  | ldVxK x => simp only [exec, execLdVxK]; split <;> simp [State.keepWaiting, State.advance, State.finish]
  | _ => intro h; cases h

/-! ### The two instructions with a check of their own -/

theorem exec_ret_of_ne (h : s.sp ≠ 0) :
    exec .ret s = .next { s.pop with pc := s.top, report := .ok } := by
  simp [exec, execRet, h, State.finish]

theorem exec_call_of_lt (nnn : BitVec 12) (h : s.sp.val < Config.stackDepth) :
    exec (.call nnn) s = .next { s.push (s.pc + 2) h with pc := addrOf nnn, report := .ok } := by
  simp only [exec, execCall, dif_pos h, State.finish]

theorem sp_lt_of_ne (h : s.sp ≠ 16) : s.sp.val < Config.stackDepth := by
  have h1 := s.sp.isLt
  have h2 : s.sp.val ≠ 16 := fun hh => h (Fin.ext hh)
  simp only [Config.stackDepth]
  omega

/-- NNN as an address is the number NNN (rule R73). -/
@[simp] theorem addrOf_toNat (nnn : BitVec 12) : (addrOf nnn).toNat = nnn.toNat := by
  unfold addrOf
  rw [BitVec.toNat_setWidth]
  exact Nat.mod_eq_of_lt (Nat.lt_trans nnn.isLt (by decide))

/-- Everything `Load` can do (rules R185, R197). -/
theorem State.load_cases (image : List Byte) :
    (image.length ≤ Config.progMax ∧
      s.load image = .next { s with mem := s.mem.writeBytes Config.progBase image, report := .ok }) ∨
    (image.length > Config.progMax ∧ s.load image = .fault (.programTooLarge image.length)) := by
  by_cases h : image.length ≤ Config.progMax
  · exact .inl ⟨h, by simp [State.load, imageWellFormed, h]⟩
  · exact .inr ⟨by omega, by simp [State.load, imageWellFormed, h, State.raise]⟩

/-! ### Register blocks -/

@[simp] theorem State.length_regBlock (x : Reg) : (s.regBlock x).length = x.val + 1 := by
  have : ∀ x : Reg, ((List.finRange 16).filter (fun r => r ≤ x)).length = x.val + 1 := by decide
  simp only [State.regBlock, List.length_map]
  exact this x

theorem State.getElem_regBlock (x r : Reg) (h : r ≤ x) :
    (s.regBlock x)[r.val]'(by rw [State.length_regBlock]; exact Nat.lt_succ_of_le h) = s.reg r := by
  have hd : ∀ x r : Reg, r ≤ x → ((List.finRange 16).filter (fun r => r ≤ x))[r.val]? = some r := by decide
  simp only [State.regBlock, List.getElem_map]
  congr 1
  exact Option.some_inj.mp ((List.getElem?_eq_getElem _).symm.trans (hd x r h))

end Sys2Proof.Machine
end

