-- ==== Sys2Proof/Laws/Exec.lean ====
section
/-!
SUPPORT. What each instruction answers, as an update of the state before it: the meanings unfolded once.
-/

namespace Sys2Proof.Machine

variable {s t : State}

theorem exec_cls_eq :
    exec .cls s = .next { s.setFb Framebuffer.clear with
      pc := s.pc + 2, report := .ok } := rfl

theorem exec_jp_eq (nnn : BitVec 12) :
    exec (.jp nnn) s = .next { s with
      pc := addrOf nnn, report := .ok } := rfl

theorem exec_seImm_eq (x : Reg) (nn : Byte) :
    exec (.seImm x nn) s = .next { s with
      pc := if s.reg x == nn then s.pc + 4 else s.pc + 2, report := .ok } := rfl

theorem exec_sneImm_eq (x : Reg) (nn : Byte) :
    exec (.sneImm x nn) s = .next { s with
      pc := if s.reg x != nn then s.pc + 4 else s.pc + 2, report := .ok } := rfl

theorem exec_seReg_eq (x y : Reg) :
    exec (.seReg x y) s = .next { s with
      pc := if s.reg x == s.reg y then s.pc + 4 else s.pc + 2, report := .ok } := rfl

theorem exec_sneReg_eq (x y : Reg) :
    exec (.sneReg x y) s = .next { s with
      pc := if s.reg x != s.reg y then s.pc + 4 else s.pc + 2, report := .ok } := rfl

theorem exec_skp_eq (x : Reg) :
    exec (.skp x) s = .next { s with
      pc := if s.key (s.keyOf x) then s.pc + 4 else s.pc + 2, report := .ok } := rfl

theorem exec_sknp_eq (x : Reg) :
    exec (.sknp x) s = .next { s with
      pc := if !s.key (s.keyOf x) then s.pc + 4 else s.pc + 2, report := .ok } := rfl

theorem exec_ldImm_eq (x : Reg) (nn : Byte) :
    exec (.ldImm x nn) s = .next { s.setReg x nn with
      pc := s.pc + 2, report := .ok } := rfl

theorem exec_addImm_eq (x : Reg) (nn : Byte) :
    exec (.addImm x nn) s = .next { s.setReg x (s.reg x + nn) with
      pc := s.pc + 2, report := .ok } := rfl

theorem exec_ldReg_eq (x y : Reg) :
    exec (.ldReg x y) s = .next { s.setReg x (s.reg y) with
      pc := s.pc + 2, report := .ok } := rfl

theorem exec_orReg_eq (x y : Reg) :
    exec (.orReg x y) s = .next { s.setReg x (s.reg x ||| s.reg y) with
      pc := s.pc + 2, report := .ok } := rfl

theorem exec_andReg_eq (x y : Reg) :
    exec (.andReg x y) s = .next { s.setReg x (s.reg x &&& s.reg y) with
      pc := s.pc + 2, report := .ok } := rfl

theorem exec_xorReg_eq (x y : Reg) :
    exec (.xorReg x y) s = .next { s.setReg x (s.reg x ^^^ s.reg y) with
      pc := s.pc + 2, report := .ok } := rfl

theorem exec_addReg_eq (x y : Reg) :
    exec (.addReg x y) s = .next { (s.setReg x (s.reg x + s.reg y)).setFlag (carryFlag (s.reg x) (s.reg y)) with
      pc := s.pc + 2, report := .ok } := rfl

theorem exec_sub_eq (x y : Reg) :
    exec (.sub x y) s = .next { (s.setReg x (s.reg x - s.reg y)).setFlag (notBorrowFlag (s.reg x) (s.reg y)) with
      pc := s.pc + 2, report := .ok } := rfl

theorem exec_shr_eq (x y : Reg) :
    exec (.shr x y) s = .next { (s.setReg x (s.reg x >>> 1)).setFlag (lowBitFlag (s.reg x)) with
      pc := s.pc + 2, report := .ok } := rfl

theorem exec_subn_eq (x y : Reg) :
    exec (.subn x y) s = .next { (s.setReg x (s.reg y - s.reg x)).setFlag (notBorrowFlag (s.reg y) (s.reg x)) with
      pc := s.pc + 2, report := .ok } := rfl

theorem exec_shl_eq (x y : Reg) :
    exec (.shl x y) s = .next { (s.setReg x (s.reg x <<< 1)).setFlag (highBitFlag (s.reg x)) with
      pc := s.pc + 2, report := .ok } := rfl

theorem exec_ldI_eq (nnn : BitVec 12) :
    exec (.ldI nnn) s = .next { s.setI (addrOf nnn) with
      pc := s.pc + 2, report := .ok } := rfl

theorem exec_jpV0_eq (nnn : BitVec 12) :
    exec (.jpV0 nnn) s = .next { s with
      pc := addrOf nnn + (s.reg 0).setWidth 16, report := .ok } := rfl

theorem exec_rnd_eq (x : Reg) (nn : Byte) :
    exec (.rnd x nn) s = .next { s.drawn.setReg x (Config.rnd s.draws &&& nn) with
      pc := s.pc + 2, report := .ok } := rfl

theorem exec_drw_eq (x y : Reg) (n : BitVec 4) :
    exec (.drw x y n) s = .next { (s.setFb (drawSprite s.mem s.i n.toNat ((s.reg x).toNat % 64) ((s.reg y).toNat % 32) s.fb).1).setFlag (flagByte (drawSprite s.mem s.i n.toNat ((s.reg x).toNat % 64) ((s.reg y).toNat % 32) s.fb).2) with
      pc := s.pc + 2, report := .ok } := rfl

theorem exec_ldVxDt_eq (x : Reg) :
    exec (.ldVxDt x) s = .next { s.setReg x s.dt with
      pc := s.pc + 2, report := .ok } := rfl

theorem exec_ldDtVx_eq (x : Reg) :
    exec (.ldDtVx x) s = .next { s.setDt (s.reg x) with
      pc := s.pc + 2, report := .ok } := rfl

theorem exec_ldStVx_eq (x : Reg) :
    exec (.ldStVx x) s = .next { s.setSt (s.reg x) with
      pc := s.pc + 2, report := .ok } := rfl

theorem exec_addI_eq (x : Reg) :
    exec (.addI x) s = .next { (s.setI (BitVec.ofNat 16 (ea s.i (s.reg x).toNat))).setFlag (indexFlag s.i (s.reg x)) with
      pc := s.pc + 2, report := .ok } := rfl

theorem exec_ldF_eq (x : Reg) :
    exec (.ldF x) s = .next { s.setI (glyphAddr (s.reg x)) with
      pc := s.pc + 2, report := .ok } := rfl

theorem exec_ldB_eq (x : Reg) :
    exec (.ldB x) s = .next { s.setMem (s.mem.writeBlock s.i 0 (bcdDigits (s.reg x))) with
      pc := s.pc + 2, report := .ok } := rfl

theorem exec_ldMemVx_eq (x : Reg) :
    exec (.ldMemVx x) s = .next { s.setMem (s.mem.writeBlock s.i 0 (s.regBlock x)) with
      pc := s.pc + 2, report := .ok } := rfl

theorem exec_ldVxMem_eq (x : Reg) :
    exec (.ldVxMem x) s = .next { s.loadRegs x with
      pc := s.pc + 2, report := .ok } := rfl

theorem exec_ldVxK_wait (x : Reg) (h : ∀ k, s.key k = false) :
    exec (.ldVxK x) s = .next { s with report := .waitingForKey } := by
  simp only [exec, execLdVxK, s.lowestKey_eq_none.mpr h, State.keepWaiting_eq]

theorem exec_ldVxK_of_lowest (x : Reg) (k : KeyIndex) (h : s.lowestKey = some k) :
    exec (.ldVxK x) s = .next { s.setReg x (keyByte k) with pc := s.pc + 2, report := .ok } := by
  simp only [exec, execLdVxK, h]
  rfl

/-- Everything 00EE can answer (rule R100). -/
theorem exec_ret_cases (s : State) :
    (s.sp = 0 ∧ exec .ret s = .fault (.stackUnderflow s.pc)) ∨
    (s.sp ≠ 0 ∧ exec .ret s = .next { s.pop with pc := s.top, report := .ok }) := by
  by_cases h : s.sp = 0
  · exact .inl ⟨h, by simp [exec, execRet, h, State.raise]⟩
  · exact .inr ⟨h, exec_ret_of_ne h⟩

/-- Everything 2NNN can answer (rule R102). -/
theorem exec_call_cases (nnn : BitVec 12) (s : State) :
    (s.sp = 16 ∧ exec (.call nnn) s = .fault (.stackOverflow s.pc)) ∨
    (∃ h : s.sp.val < Config.stackDepth,
      exec (.call nnn) s = .next { s.push (s.pc + 2) h with pc := addrOf nnn, report := .ok }) := by
  by_cases h : s.sp = 16
  · exact .inl ⟨h, by simp [exec, execCall, h, State.raise]⟩
  · exact .inr ⟨sp_lt_of_ne h, exec_call_of_lt nnn (sp_lt_of_ne h)⟩

/-- Everything FX0A can answer (rule R163). -/
theorem exec_ldVxK_cases (x : Reg) (s : State) :
    ((∀ k, s.key k = false) ∧ exec (.ldVxK x) s = .next { s with report := .waitingForKey }) ∨
    (∃ k, s.lowestKey = some k ∧
      exec (.ldVxK x) s = .next { s.setReg x (keyByte k) with pc := s.pc + 2, report := .ok }) := by
  cases h : s.lowestKey with
  | none => exact .inl ⟨s.lowestKey_eq_none.mp h, exec_ldVxK_wait x (s.lowestKey_eq_none.mp h)⟩
  | some k => exact .inr ⟨k, rfl, exec_ldVxK_of_lowest x k h⟩

end Sys2Proof.Machine
end

