-- ==== Sys2Proof/Laws/PerInstr.lean ====
section
/-!
SUPPORT. One lemma per constructor: the encoded word is selected by the instruction's own row of rule R75.
-/

namespace Sys2Proof.Laws.EncodeSelectsRow

/-- The word of an instruction selects its row (rules R74, R75). -/
def Statement (i : Instr) : Prop := i.row.selects (encode i) = true

theorem of_mask {i : Instr} (h : encode i &&& i.row.mask = i.row.pattern) : Statement i := by
  simp [Statement, OpcodeRow.selects, h]

theorem cls : Statement .cls := of_mask rfl
theorem ret : Statement .ret := of_mask rfl
theorem jp (nnn : BitVec 12) : Statement (.jp nnn) := of_mask (formatA_mask _ _)
theorem call (nnn : BitVec 12) : Statement (.call nnn) := of_mask (formatA_mask _ _)
theorem seImm (x : Reg) (nn : Byte) : Statement (.seImm x nn) := of_mask (formatXI_mask _ _ _)
theorem sneImm (x : Reg) (nn : Byte) : Statement (.sneImm x nn) := of_mask (formatXI_mask _ _ _)
theorem seReg (x : Reg) (y : Reg) : Statement (.seReg x y) := of_mask (formatXY_mask _ _ _ _)
theorem ldImm (x : Reg) (nn : Byte) : Statement (.ldImm x nn) := of_mask (formatXI_mask _ _ _)
theorem addImm (x : Reg) (nn : Byte) : Statement (.addImm x nn) := of_mask (formatXI_mask _ _ _)
theorem ldReg (x : Reg) (y : Reg) : Statement (.ldReg x y) := of_mask (formatXY_mask _ _ _ _)
theorem orReg (x : Reg) (y : Reg) : Statement (.orReg x y) := of_mask (formatXY_mask _ _ _ _)
theorem andReg (x : Reg) (y : Reg) : Statement (.andReg x y) := of_mask (formatXY_mask _ _ _ _)
theorem xorReg (x : Reg) (y : Reg) : Statement (.xorReg x y) := of_mask (formatXY_mask _ _ _ _)
theorem addReg (x : Reg) (y : Reg) : Statement (.addReg x y) := of_mask (formatXY_mask _ _ _ _)
theorem sub (x : Reg) (y : Reg) : Statement (.sub x y) := of_mask (formatXY_mask _ _ _ _)
theorem shr (x : Reg) (y : Reg) : Statement (.shr x y) := of_mask (formatXY_mask _ _ _ _)
theorem subn (x : Reg) (y : Reg) : Statement (.subn x y) := of_mask (formatXY_mask _ _ _ _)
theorem shl (x : Reg) (y : Reg) : Statement (.shl x y) := of_mask (formatXY_mask _ _ _ _)
theorem sneReg (x : Reg) (y : Reg) : Statement (.sneReg x y) := of_mask (formatXY_mask _ _ _ _)
theorem ldI (nnn : BitVec 12) : Statement (.ldI nnn) := of_mask (formatA_mask _ _)
theorem jpV0 (nnn : BitVec 12) : Statement (.jpV0 nnn) := of_mask (formatA_mask _ _)
theorem rnd (x : Reg) (nn : Byte) : Statement (.rnd x nn) := of_mask (formatXI_mask _ _ _)
theorem drw (x : Reg) (y : Reg) (n : BitVec 4) : Statement (.drw x y n) := of_mask (formatXYN_mask _ _ _ _)
theorem skp (x : Reg) : Statement (.skp x) := of_mask (formatXF_mask _ _ _)
theorem sknp (x : Reg) : Statement (.sknp x) := of_mask (formatXF_mask _ _ _)
theorem ldVxDt (x : Reg) : Statement (.ldVxDt x) := of_mask (formatXF_mask _ _ _)
theorem ldVxK (x : Reg) : Statement (.ldVxK x) := of_mask (formatXF_mask _ _ _)
theorem ldDtVx (x : Reg) : Statement (.ldDtVx x) := of_mask (formatXF_mask _ _ _)
theorem ldStVx (x : Reg) : Statement (.ldStVx x) := of_mask (formatXF_mask _ _ _)
theorem addI (x : Reg) : Statement (.addI x) := of_mask (formatXF_mask _ _ _)
theorem ldF (x : Reg) : Statement (.ldF x) := of_mask (formatXF_mask _ _ _)
theorem ldB (x : Reg) : Statement (.ldB x) := of_mask (formatXF_mask _ _ _)
theorem ldMemVx (x : Reg) : Statement (.ldMemVx x) := of_mask (formatXF_mask _ _ _)
theorem ldVxMem (x : Reg) : Statement (.ldVxMem x) := of_mask (formatXF_mask _ _ _)

end Sys2Proof.Laws.EncodeSelectsRow
end

