-- ==== Sys2Proof/Tests/Slice0.lean ====
section
/-!
SUPPORT. Tests: expected results come from spec/95_test_vectors.md (the vector is named in each comment) or are
worked out by hand from the rule named. Then one witness for each statement with hypotheses.
-/

namespace Sys2Proof.Tests

open Sys2Proof.Machine

/-- One step from `s` with the word `w` placed at pc. -/
def run1 (s : State) (w : Nat) : Option State :=
  match step (s.withFetchWord 16 w) with
  | .next t => some t
  | _ => none

/-- The error of one step from `s` with the word `w` placed at pc. -/
def err1 (s : State) (w : Nat) : Option Fault :=
  match step (s.withFetchWord 16 w) with
  | .fault f => some f
  | _ => none

abbrev s0 : State := State.reset

/-- Registers set in the reset state. -/
def regs (l : List (Reg × Byte)) : State := l.foldl (fun s p => s.setReg p.1 p.2) s0

/-- Memory bytes set from address `a`. -/
def memAt (s : State) (a : Nat) (bs : List Byte) : State := s.setMem (s.mem.writeBytes a bs)

/-! ### WellFormed: a word or an image each check refuses (rules R76, R185) -/

theorem test_illformed_family0 : wordWellFormed 0x00E1 = false := by decide
theorem test_illformed_family5 : wordWellFormed 0x5121 = false := by decide
theorem test_illformed_family8 : wordWellFormed 0x8AB8 = false := by decide
theorem test_illformed_family9 : wordWellFormed 0x9AB1 = false := by decide
theorem test_illformed_familyE : wordWellFormed 0xE19F = false := by decide
theorem test_illformed_familyF : wordWellFormed 0xF175 = false := by decide
theorem test_illformed_image : imageWellFormed (List.replicate 3585 0) = false := by
  unfold imageWellFormed; rw [List.length_replicate]; decide
theorem test_wellformed_image : imageWellFormed (List.replicate 3584 0) = true := by
  unfold imageWellFormed; rw [List.length_replicate]; decide
theorem test_wellformed_words :
    wordWellFormed 0x00E0 = true ∧ wordWellFormed 0x1ABC = true ∧ wordWellFormed 0x8ABE = true ∧
      wordWellFormed 0xF165 = true := by decide

/-! ### Decoding: a word of every constructor, written out from rules R71 and R75 (vectors of section 2.1) -/

theorem test_decode_flow :
    decodeWord 0x00EE = some .ret ∧ decodeWord 0x1ABC = some (.jp 0xABC) ∧
    decodeWord 0x220E = some (.call 0x20E) ∧ decodeWord 0xB300 = some (.jpV0 0x300) := by decide
theorem test_decode_skip :
    decodeWord 0x3C7F = some (.seImm 0xC 0x7F) ∧ decodeWord 0x432A = some (.sneImm 3 0x2A) ∧
    decodeWord 0x5120 = some (.seReg 1 2) ∧ decodeWord 0x9AB0 = some (.sneReg 0xA 0xB) := by decide
theorem test_decode_alu_imm :
    decodeWord 0x6A05 = some (.ldImm 0xA 0x05) ∧ decodeWord 0x70FF = some (.addImm 0 0xFF) := by decide
theorem test_decode_alu_reg :
    decodeWord 0x8120 = some (.ldReg 1 2) ∧ decodeWord 0x8121 = some (.orReg 1 2) ∧
    decodeWord 0x8122 = some (.andReg 1 2) ∧ decodeWord 0x8123 = some (.xorReg 1 2) ∧
    decodeWord 0x8AB4 = some (.addReg 0xA 0xB) ∧ decodeWord 0x8AB5 = some (.sub 0xA 0xB) ∧
    decodeWord 0x8AB6 = some (.shr 0xA 0xB) ∧ decodeWord 0x8AB7 = some (.subn 0xA 0xB) ∧
    decodeWord 0x8ABE = some (.shl 0xA 0xB) := by decide
theorem test_decode_index :
    decodeWord 0xA2F0 = some (.ldI 0x2F0) ∧ decodeWord 0xF31E = some (.addI 3) ∧
    decodeWord 0xF429 = some (.ldF 4) ∧ decodeWord 0xF033 = some (.ldB 0) ∧
    decodeWord 0xF255 = some (.ldMemVx 2) ∧ decodeWord 0xF265 = some (.ldVxMem 2) := by decide
theorem test_decode_display :
    decodeWord 0x00E0 = some .cls ∧ decodeWord 0xD12F = some (.drw 1 2 15) := by decide
theorem test_decode_io :
    decodeWord 0xC30F = some (.rnd 3 0x0F) ∧ decodeWord 0xE19E = some (.skp 1) ∧
    decodeWord 0xE1A1 = some (.sknp 1) ∧ decodeWord 0xF107 = some (.ldVxDt 1) ∧
    decodeWord 0xF10A = some (.ldVxK 1) ∧ decodeWord 0xF115 = some (.ldDtVx 1) ∧
    decodeWord 0xF118 = some (.ldStVx 1) := by decide
theorem test_decode_unrecognised :
    ([0x0000, 0x0123, 0x00FF, 0x0FFF, 0x5121, 0x8AB9, 0x8ABD, 0x8ABF, 0x9AB1, 0xE100, 0xE1A0] : List Word).all
      (fun w => (decodeWord w).isNone) = true := by decide
theorem test_decode_unrecognised_F :
    ([0xF100, 0xF175, 0xF185, 0xF1FF, 0xF130, 0xF10B] : List Word).all
      (fun w => (decodeWord w).isNone) = true := by decide
theorem test_encode_words :
    encode (.jp 0xABC) = 0x1ABC ∧ encode (.ldImm 0xA 5) = 0x6A05 ∧ encode (.drw 1 2 15) = 0xD12F ∧
      encode (.sknp 1) = 0xE1A1 := by decide
/-- Bytes in memory order, high byte first (rule R52). -/
theorem test_decode_bytes :
    (match decode [0x6A, 0x05, 0x77] with | .ok p => some p | .error _ => none) =
      some (.ldImm 0xA 5, [0x77]) ∧ encodeBytes (.ldImm 0xA 5) = [0x6A, 0x05] := by decide
theorem test_decodeTableWord : decodeTableWord 16 0x8AB4 = some (.addReg 0xA 0xB) := by decide

/-! ### Control transfer (section 2.2) -/

/-- F1 -/
theorem test_jp : (run1 s0 0x1ABC).map (·.pc) = some 0x0ABC := by decide
/-- F2 -/
theorem test_jp_self : (run1 s0 0x1200) = some (s0.withFetchWord 16 0x1200) := by decide
/-- F4 -/
theorem test_call : (run1 s0 0x220E).map (fun t => (t.stack[0], t.sp.val, t.pc)) = some (0x0202, 1, 0x020E) := by
  decide
/-- F5 -/
theorem test_call_overflow : err1 { s0 with sp := 16 } 0x2300 = some (.stackOverflow 0x0200) := by decide
/-- F6 -/
theorem test_ret_underflow : err1 s0 0x00EE = some (.stackUnderflow 0x0200) := by decide
/-- F7 -/
theorem test_ret :
    (run1 { s0 with sp := 2, stack := s0.stack.set 1 0x0456 } 0x00EE).map (fun t => (t.sp.val, t.pc, t.stack[1])) =
      some (1, 0x0456, 0x0456) := by decide
/-- F9 -/
theorem test_jpV0_not_masked : (run1 (regs [(0, 0xFF)]) 0xBFFF).map (·.pc) = some 0x10FE := by decide
/-- F10 -/
theorem test_jpV0_uses_V0 : (run1 (regs [(0, 0x01), (3, 0x50)]) 0xB300).map (·.pc) = some 0x0301 := by decide

/-! ### Skips (section 2.3) -/

/-- K1, K2 -/
theorem test_seImm :
    (run1 (regs [(3, 0x2A)]) 0x332A).map (·.pc) = some 0x0204 ∧
    (run1 (regs [(3, 0x2B)]) 0x332A).map (·.pc) = some 0x0202 := by decide
/-- K3, K4 -/
theorem test_sneImm :
    (run1 (regs [(3, 0x2A)]) 0x432A).map (·.pc) = some 0x0202 ∧
    (run1 (regs [(3, 0x2A)]) 0x4300).map (·.pc) = some 0x0204 := by decide
/-- K5, K6 -/
theorem test_seReg :
    (run1 (regs [(1, 7), (2, 7)]) 0x5120).map (·.pc) = some 0x0204 ∧
    (run1 (regs [(1, 7), (2, 8)]) 0x5120).map (·.pc) = some 0x0202 := by decide
/-- K8, K9 -/
theorem test_sneReg :
    (run1 (regs [(1, 7), (2, 8)]) 0x9120).map (·.pc) = some 0x0204 ∧
    (run1 (regs [(1, 7)]) 0x9110).map (·.pc) = some 0x0202 := by decide

/-! ### Load, arithmetic, logic (section 2.4) -/

/-- A1 -/
theorem test_ldImm : (run1 s0 0x6A05).map (fun t => (t.reg 10, t.pc)) = some (0x05, 0x0202) := by decide
/-- A4: a wrap, no flag -/
theorem test_addImm_wraps : (run1 (regs [(0, 0xFF)]) 0x7001).map (fun t => (t.reg 0, t.reg 15)) = some (0, 0) := by
  decide
/-- A5 -/
theorem test_ldReg : (run1 (regs [(2, 0x9C)]) 0x8120).map (fun t => (t.reg 1, t.reg 2)) = some (0x9C, 0x9C) := by
  decide
/-- A6 -/
theorem test_orReg :
    (run1 (regs [(1, 0xF0), (2, 0x0F), (15, 1)]) 0x8121).map (fun t => (t.reg 1, t.reg 15)) = some (0xFF, 1) := by
  decide
/-- A7 -/
theorem test_andReg :
    (run1 (regs [(1, 0xF3), (2, 0x3F), (15, 1)]) 0x8122).map (fun t => (t.reg 1, t.reg 15)) = some (0x33, 1) := by
  decide
/-- A8 -/
theorem test_xorReg :
    (run1 (regs [(1, 0xFF), (2, 0x0F), (15, 1)]) 0x8123).map (fun t => (t.reg 1, t.reg 15)) = some (0xF0, 1) := by
  decide
/-- S4 -/
theorem test_addReg_carry :
    (run1 (regs [(10, 0xFA), (11, 0x0A)]) 0x8AB4).map (fun t => (t.reg 10, t.reg 15)) = some (0x04, 1) := by decide
/-- A13: VF is the destination, the flag wins -/
theorem test_addReg_VF :
    (run1 (regs [(15, 0xFF), (1, 0x02)]) 0x8F14).map (fun t => (t.reg 15, t.reg 1)) = some (0x01, 0x02) := by decide
/-- S5 -/
theorem test_sub_borrow :
    (run1 (regs [(10, 3), (11, 5)]) 0x8AB5).map (fun t => (t.reg 10, t.reg 15)) = some (254, 0) := by decide
/-- A15 -/
theorem test_sub_equal : (run1 (regs [(1, 5)]) 0x8115).map (fun t => (t.reg 1, t.reg 15)) = some (0, 1) := by decide
/-- A18: Y is ignored -/
theorem test_shr :
    (run1 (regs [(10, 0x11), (11, 0xFE)]) 0x8AB6).map (fun t => (t.reg 10, t.reg 15, t.reg 11)) =
      some (0x08, 1, 0xFE) := by decide
/-- A21 -/
theorem test_shr_VF : (run1 (regs [(15, 0x02)]) 0x8F06).map (·.reg 15) = some 0 := by decide
/-- A22 -/
theorem test_subn_borrow :
    (run1 (regs [(10, 0xFA), (11, 0x0A)]) 0x8AB7).map (fun t => (t.reg 10, t.reg 15)) = some (0x10, 0) := by decide
/-- A24 -/
theorem test_subn_equal :
    (run1 (regs [(10, 5), (11, 5)]) 0x8AB7).map (fun t => (t.reg 10, t.reg 15)) = some (0, 1) := by decide
/-- A25 -/
theorem test_shl : (run1 (regs [(10, 0x81)]) 0x8AAE).map (fun t => (t.reg 10, t.reg 15)) = some (0x02, 1) := by
  decide
/-- A27 -/
theorem test_shl_VF : (run1 (regs [(15, 0x80)]) 0x8F0E).map (·.reg 15) = some 1 := by decide

/-! ### Index and memory (section 2.5) -/

/-- M2 -/
theorem test_ldI : (run1 s0 0xAFFF).map (·.i) = some 0x0FFF := by decide
/-- M4 -/
theorem test_addI_wraps :
    (run1 ((regs [(3, 5)]).setI 0xFFE) 0xF31E).map (fun t => (t.i, t.reg 15)) = some (0x003, 1) := by decide
/-- M7 -/
theorem test_addI_VF :
    (run1 ((regs [(15, 1)]).setI 0xFFF) 0xFF1E).map (fun t => (t.i, t.reg 15)) = some (0, 1) := by decide
/-- M12 -/
theorem test_ldF : (run1 (regs [(4, 0xFF)]) 0xF429).map (·.i) = some 0x04FB := by decide
/-- S8 -/
theorem test_ldB :
    (run1 ((regs [(0, 157)]).setI 0x300) 0xF033).map
      (fun t => (t.mem.read 0x300, t.mem.read 0x301, t.mem.read 0x302)) = some (1, 5, 7) := by decide
/-- M16: the block wraps to address 0 -/
theorem test_ldB_wraps :
    (run1 ((regs [(0, 0xFF)]).setI 0xFFF) 0xF033).map
      (fun t => (t.mem.read 0xFFF, t.mem.read 0x000, t.mem.read 0x001, t.i)) = some (2, 5, 5, 0xFFF) := by decide
/-- M17 -/
theorem test_ldMemVx :
    (run1 ((regs [(0, 0x11), (1, 0x22), (2, 0x33)]).setI 0x300) 0xF255).map
      (fun t => (t.mem.read 0x300, t.mem.read 0x301, t.mem.read 0x302, t.mem.read 0x303)) =
      some (0x11, 0x22, 0x33, 0) := by decide
/-- M18: the block wraps to address 0 -/
theorem test_ldMemVx_wraps :
    (run1 ((regs [(0, 0x11), (1, 0x22), (2, 0x33)]).setI 0xFFE) 0xF255).map
      (fun t => (t.mem.read 0xFFE, t.mem.read 0xFFF, t.mem.read 0x000, t.i)) = some (0x11, 0x22, 0x33, 0xFFE) := by
  decide
/-- M20 -/
theorem test_ldVxMem :
    (run1 (memAt ((regs [(3, 0xEE)]).setI 0x300) 0x300 [1, 5, 7]) 0xF265).map
      (fun t => (t.reg 0, t.reg 1, t.reg 2, t.reg 3)) = some (1, 5, 7, 0xEE) := by decide

/-! ### Display (section 2.6) -/

/-- A sprite byte at 0x300, I pointing at it. -/
def sprite (l : List (Reg × Byte)) (bs : List Byte) : State := memAt ((regs l).setI 0x300) 0x300 bs

/-- G3: bit 7 is the leftmost pixel -/
theorem test_drw_leftmost :
    (run1 (sprite [] [0x80]) 0xD011).map (fun t => (t.pixel 0 0, t.pixel 7 0, t.reg 15)) =
      some (true, false, 0) := by decide
/-- G6: rows wrap -/
theorem test_drw_wraps :
    (run1 (sprite [(0, 0), (1, 0x1F)] [0xFF, 0xFF]) 0xD012).map
      (fun t => (t.fb[31], t.fb[0], t.fb[1])) = some (0xFF, 0xFF, 0) := by decide
/-- G11: a collision -/
theorem test_drw_collision :
    (run1 ((sprite [] [0xC0]).setFb (s0.fb.set 0 1)) 0xD011).map
      (fun t => (t.pixel 0 0, t.pixel 1 0, t.reg 15)) = some (false, true, 1) := by decide
/-- G12: the old VF is the column -/
theorem test_drw_VF :
    (run1 (sprite [(15, 5), (1, 2)] [0x80]) 0xDF11).map (fun t => (t.pixel 5 2, t.reg 15)) = some (true, 0) := by
  decide
/-- G14 -/
theorem test_cls :
    (run1 ((regs [(15, 1)]).setFb (s0.fb.set 3 0xF)) 0x00E0).map (fun t => (t.fb, t.reg 15)) = some (s0.fb, 1) := by
  decide

/-! ### Random, keys, timers (section 2.7) -/

/-- A key pressed. -/
def press (s : State) (k : KeyIndex) : State := s.setKey k true

/-- T1, with the random byte as an argument (it is a free value in `exec`). -/
theorem test_rnd :
    (match rndWith 0xA7 3 0x0F s0 with | .next t => some (t.reg 3, t.pc) | _ => none) = some (0x07, 0x0202) := by
  decide
/-- T4, T8 -/
theorem test_skp :
    (run1 (press (regs [(0, 7)]) 7) 0xE09E).map (·.pc) = some 0x0204 ∧
    (run1 (press (regs [(0, 0x1A)]) 10) 0xE09E).map (·.pc) = some 0x0204 := by decide
/-- T5, T7 -/
theorem test_sknp :
    (run1 (press (regs [(0, 7)]) 7) 0xE0A1).map (·.pc) = some 0x0202 ∧
    (run1 (regs [(0, 7)]) 0xE0A1).map (·.pc) = some 0x0204 := by decide
/-- T9 -/
theorem test_ldVxK_waits :
    run1 s0 0xF30A = some { s0.withFetchWord 16 0xF30A with report := .waitingForKey } := by decide
/-- T10 -/
theorem test_ldVxK_lowest :
    (run1 (press (press s0 9) 12) 0xF30A).map (fun t => (t.reg 3, t.pc)) = some (9, 0x0202) := by decide
/-- T12 -/
theorem test_ldVxDt : (run1 (s0.setDt 5) 0xF107).map (fun t => (t.reg 1, t.dt)) = some (5, 5) := by decide
/-- T13 -/
theorem test_ldDtVx : (run1 (regs [(0, 7)]) 0xF015).map (fun t => (t.dt, t.st)) = some (7, 0) := by decide
/-- T14 -/
theorem test_ldStVx : (run1 (regs [(2, 0x1E)]) 0xF218).map (fun t => (t.st, t.dt)) = some (0x1E, 0) := by decide
/-- T15, T17 -/
theorem test_tick : ((s0.setDt 2).tick.dt, (s0.setDt 2).tick.st) = (1, 0) := by decide
/-- T19 -/
theorem test_setKey : ((s0.setKey 5 true).key 5, ((s0.setKey 5 true).setKey 5 false).key 5) = (true, false) := by
  decide

/-! ### Errors, reset, load (section 2.8) -/

/-- E9 -/
theorem test_unknown :
    (run1 s0 0x5121).map (fun t => (t.pc, t.report)) = some (0x0202, .unknownOpcode 0x0200 0x5121) := by decide
/-- E3: a fetch at 0xFFE is legal -/
theorem test_last_fetch :
    (run1 { s0 with pc := 0x0FFE } 0x6A05).map (fun t => (t.reg 10, t.pc)) = some (5, 0x1000) := by decide
/-- E4 -/
theorem test_invalid_address : err1 { s0 with pc := 0x0FFF } 0 = some (.invalidAddress 0x0FFF) := by decide
/-- F12: an odd pc fetches like any other (second step) -/
theorem test_odd_pc : (run1 { s0 with pc := 0x0203 } 0x6A05).map (fun t => (t.reg 10, t.pc)) = some (5, 0x0205) := by
  decide
/-- Rule R197: byte 0 of the image is the high byte of the first instruction. -/
theorem test_load :
    (match s0.load [0x12, 0x34] with | .next t => some t.fetch | _ => none) = some (some 0x1234) := by decide
/-- Rule R210: reset erases what was loaded and releases keys. -/
theorem test_reset : (press (memAt s0 0x200 [1, 2]) 3).resetEvent = s0 := by decide
/-- R198: the key-wait accessor. -/
theorem test_waiting :
    (s0.withFetchWord 16 0xF00A).waiting = true ∧ ((press s0 3).withFetchWord 16 0xF00A).waiting = false := by decide

/-! ### Witnesses: a state and operands that meet the hypotheses of each statement -/

theorem witness_EncodeOfDecode : decodeWord 0x6A05 = some (.ldImm 0xA 5) := by decide
theorem witness_DecodesIffRowSelects : decodeWord 0xF165 = some (.ldVxMem 1) := by decide
theorem witness_RowsDisjoint :
    (⟨0x6000, 0xF000⟩ : OpcodeRow) ∈ opcodeRows ∧ OpcodeRow.selects ⟨0x6000, 0xF000⟩ 0x6A05 = true := by decide
/-- A boundary word for each clause of rule R76's table. -/
theorem witness_UnrecognisedWords :
    ([0x0000, 0x00DF, 0x0FFF, 0x5001, 0x5FFF, 0x8008, 0x800F, 0x9001, 0x9FFF] : List Word).all
      (fun w => (decodeWord w).isNone) = true ∧
    ([0xE000, 0xE0A2, 0xEFFF, 0xF000, 0xF066, 0xFFFF] : List Word).all (fun w => (decodeWord w).isNone) = true := by
  decide
theorem witness_StepRunsDecodedInstruction :
    ∃ s : State, s.pc.toNat + 1 ≤ 0xFFF ∧
      decodeWord (s.mem.read s.pc.toNat ++ s.mem.read (s.pc.toNat + 1)) = some (.ldImm 0xA 5) :=
  ⟨s0.withFetchWord 16 0x6A05, by decide, by decide⟩
theorem witness_InvalidAddressExactly :
    ∃ (s : State) (es : List Event), s.pc.toNat + 1 > 0xFFF ∧ Event.reset ∉ es ∧ es ≠ [] :=
  ⟨{ s0 with pc := 0x0FFF }, [.tick, .step, .setKey 1 true], by decide, by decide, by decide⟩
theorem witness_UnknownOpcodeAdvances :
    ∃ (s : State) (w : Word), s.fetch = some w ∧ decodeWord w = none := ⟨s0, 0, by decide, by decide⟩
theorem witness_UnknownOpcodeAdvances_report :
    ∃ s t : State, step s = .next t ∧ t.report = .unknownOpcode 0x200 0 := ⟨s0, _, rfl, by decide⟩
theorem witness_ReturnPops : (s0.sp = 0) ∧ ({ s0 with sp := 1 } : State).sp ≠ 0 := by decide
theorem witness_ReturnPops_past_the_end :
    ∃ s t : State, s.sp ≠ 0 ∧ exec .ret s = .next t ∧ t.pc.toNat + 1 > 0xFFF :=
  ⟨{ s0 with sp := 1, stack := s0.stack.set 0 0x1000 }, _, by decide, exec_ret_of_ne (by decide), by decide⟩
theorem witness_ReturnPops_live_entry :
    ∃ (s t : State) (k : Fin 16), k.val < s.sp.val ∧ exec (.call 0x300) s = .next t :=
  ⟨{ s0 with sp := 15 }, _, 14, by decide, exec_call_of_lt 0x300 (by decide)⟩
theorem witness_StackUnderflowExactly :
    ∃ s : State, s.nextInstr = some .ret ∧ s.sp = 0 := ⟨s0.withFetchWord 16 0x00EE, by decide, by decide⟩
theorem witness_StackOverflowExactly :
    ∃ s : State, s.nextInstr = some (.call 0x300) ∧ s.sp = 16 :=
  ⟨{ s0 with sp := 16 }.withFetchWord 16 0x2300, by decide, by decide⟩
theorem witness_StackOverflowExactly_nested :
    ∃ (s : State) (l : List (BitVec 12)), s.sp = 0 ∧ l.length = 16 :=
  ⟨s0, List.replicate 16 0x200, by decide, by decide⟩
theorem witness_JumpSetsPc : (s0.pc.toNat = (0x200 : BitVec 12).toNat) := by decide
theorem witness_CallPushes : ({ s0 with sp := 15 } : State).sp ≠ 16 := by decide
theorem witness_CallThenReturn :
    ∃ t u : State, s0.sp ≠ 16 ∧ exec (.call 0x300) s0 = .next t ∧ u.stack = t.stack ∧ u.sp = t.sp ∧ u ≠ t :=
  ⟨_, { s0.push 0x202 (by decide) with pc := 0x310 }, by decide, exec_call_of_lt 0x300 (by decide), rfl, rfl,
    by decide⟩
theorem witness_JumpV0SetsPc : (0xFFF : BitVec 12).toNat + (s0.reg 0).toNat ≥ 0xFFF := by decide
theorem witness_SkipsOnRegisters :
    ((0x5001 : Word).toNat / 4096 = 0x5 ∧ (0x5001 : Word).toNat % 16 ≠ 0) ∧
    ((0x900F : Word).toNat / 4096 = 0x9 ∧ (0x900F : Word).toNat % 16 ≠ 0) := by decide
theorem witness_SkipsOnKeys : (10 : KeyIndex).val = ((regs [(0, 0xFA)]).reg 0).toNat % 16 := by decide
/-- The register hypotheses of the statements of section Load, arithmetic, logic, shifts, and of drawing. -/
theorem witness_register_hypotheses :
    (14 : Reg) ≠ 15 ∧ (1 : Reg) ≠ 14 ∧ (1 : Reg) ≠ 15 ∧ (3 : Reg) = 3 := by decide
theorem witness_block_hypotheses :
    (15 : Reg) ≤ 15 ∧ (14 : Reg) < 15 ∧ 0x303 ∉ blockAddrs 0x300 3 ∧ 0x001 ∉ blockAddrs 0xFFE 3 := by decide
theorem witness_StoredWordIsFetched :
    ∃ (x : Reg) (s : State), 1 ≤ x.val ∧ s.i.toNat + 1 ≤ 0xFFF := ⟨1, s0.setI 0xFFE, by decide, by decide⟩
theorem witness_MemoryFormCanonical :
    ∃ m n : Memory, m.cells ≠ [] ∧ m.font = n.font ∧ m.wf ∧ n.wf ∧ ∀ a, a < 4096 → m.read a = n.read a :=
  ⟨⟨defaultFont, [(0x300, 1)]⟩, ⟨defaultFont, [(0x300, 1)]⟩, by decide, rfl, by decide, by decide, fun _ _ => rfl⟩
theorem witness_ClearScreen :
    (∀ x y, s0.pixel x y = false) ∧
    ∃ (i : Instr) (s t : State), i ≠ .cls ∧ (∀ x y n, i ≠ .drw x y n) ∧ exec i s = .next t ∧ s.pixel 0 0 = true :=
  ⟨fun x y => by simp [s0, State.pixel, Framebuffer.pixel, State.reset, State.resetWith],
    .jp 0, s0.setFb (s0.fb.set 0 1), _, by decide, fun _ _ _ h => Instr.noConfusion h, exec_jp_eq 0, by decide⟩
/-- Each kind of event the last clause of ClearScreen is about, a step on an unrecognised word among them. -/
theorem witness_ClearScreen_events :
    s0.nextInstr = none ∧ Event.step ≠ .reset ∧ Event.tick ≠ .reset ∧ Event.setKey 1 true ≠ .reset ∧
      Event.load [0x12] ≠ .reset ∧ (s0.withFetchWord 16 0x6A05).nextInstr = some (.ldImm 0xA 5) := by decide
theorem witness_DrawSprite_collision :
    ∃ (s : State) (px : Fin 64) (py : Fin 32), s.pixel px py = true ∧
      spriteCovers s.mem s.i 1 ((s.reg 0).toNat % 64) ((s.reg 1).toNat % 32) px py :=
  ⟨(sprite [] [0xC0]).setFb (s0.fb.set 0 1), 0, 0, by decide, 0, 0, by decide, by decide, by decide, by decide,
    by decide⟩
theorem witness_DrawSprite_no_collision :
    ∃ s : State, ¬ ∃ px py, s.pixel px py = true ∧
      spriteCovers s.mem s.i 0 ((s.reg 0).toNat % 64) ((s.reg 1).toNat % 32) px py :=
  ⟨s0, fun ⟨_, _, _, _, _, h, _⟩ => absurd h (Nat.not_lt_zero _)⟩
theorem witness_DrawTwiceRestores :
    ∃ s t : State, (0 : Reg) ≠ 15 ∧ (1 : Reg) ≠ 15 ∧ exec (.drw 0 1 1) s = .next t ∧
      s.pixel 0 0 = false ∧ t.pixel 0 0 = true :=
  ⟨sprite [] [0x80], _, by decide, by decide, exec_drw_eq 0 1 1, by decide, by decide⟩
theorem witness_RandomUnderMask :
    ∃ (i : Instr) (t : State), (∀ x nn, i ≠ .rnd x nn) ∧ exec i s0 = .next t :=
  ⟨.cls, _, by simp, exec_cls_eq⟩
theorem witness_WaitForKey :
    (∀ k, s0.key k = false) ∧ (press s0 7).key 7 = true ∧ ∀ j, j < 7 → (press s0 7).key j = false := by decide
theorem witness_TimerMoves :
    ∃ (t : State) (f : Fault), exec (.ldVxDt 0) (s0.setSt 9) = .next t ∧ exec .ret s0 = .fault f :=
  ⟨_, _, exec_ldVxDt_eq 0, rfl⟩
/-- Rule R196 at the ends of ST's range, and the last tick of a tone. -/
theorem test_soundOn :
    (s0.setSt 255).soundOn = true ∧ s0.soundOn = false ∧ (s0.setSt 1).tick.soundOn = false := by decide
theorem witness_TickCountsDown : (s0.setDt 1).dt.toNat > 0 ∧ s0.dt.toNat = 0 ∧ (s0.setSt 255).st.toNat > 0 := by
  decide
theorem witness_LoadCopiesImage :
    (∃ image : List Byte, image.length > 3584) ∧ ∃ image : List Byte, 1 < image.length ∧ image.length ≤ 3584 ∧
      s0.pc = 0x200 :=
  ⟨⟨List.replicate 3585 0, by rw [List.length_replicate]; decide⟩, [0x12, 0x34], by decide, by decide, rfl⟩
theorem witness_StepKeepsInvariant : ∃ s t : State, s.Inv ∧ step s = .next t :=
  ⟨s0, _, ⟨by decide, by decide, by decide, Memory.wf_nil _⟩, rfl⟩
theorem witness_EventsKeepInvariant : ∃ s : State, s.mem.cells ≠ [] ∧ s.Inv :=
  ⟨s0.withFetchWord 16 0x6A05, by decide, by decide, by decide, by decide, by decide⟩
theorem witness_FrameOfEveryInstruction : ∃ t, exec (.ldMemVx 2) s0 = .next t := ⟨_, exec_ldMemVx_eq 2⟩
theorem witness_PcOfEveryInstruction : ∃ t, exec (.seImm 3 0) s0 = .next t := ⟨_, exec_seImm_eq 3 0⟩
theorem witness_TickAndStepCommute :
    ∃ s : State, s.dt ≠ 0 ∧ s.nextInstr = some (.ldImm 0xA 5) ∧ usesTimer (.ldImm 0xA 5) = false :=
  ⟨(s0.setDt 3).withFetchWord 16 0x6A05, by decide, by decide, rfl⟩
theorem witness_DeadStackSlotsUnobservable : ∃ s t : State, EqLive s t ∧ s ≠ t :=
  ⟨s0, { s0 with stack := s0.stack.set 0 1 }, ⟨fun _ h => absurd h (Nat.not_lt_zero _), rfl⟩, by decide⟩
/-- Different host's sides, the same machine state, an instruction that draws nothing. -/
theorem witness_StepDependsOnMachineState :
    ∃ s t : State, s ≠ t ∧ s.toMachineState = t.toMachineState ∧ s.nextInstr = some (.ldImm 0xA 5) ∧
      ∀ x nn, s.nextInstr = some (.rnd x nn) → Config.rnd s.draws = Config.rnd t.draws :=
  have h : (s0.withFetchWord 16 0x6A05).nextInstr = some (.ldImm 0xA 5) := by decide
  ⟨s0.withFetchWord 16 0x6A05, { s0.withFetchWord 16 0x6A05 with draws := 7, report := .waitingForKey },
    by decide, rfl, h, fun x nn hr => by rw [h] at hr; cases hr⟩
/-- The same with a draw: the host gives both the same byte. -/
theorem witness_StepDependsOnMachineState_draw :
    ∃ s t : State, s ≠ t ∧ s.toMachineState = t.toMachineState ∧ s.nextInstr = some (.rnd 3 0x0F) ∧
      Config.rnd s.draws = Config.rnd t.draws :=
  ⟨s0.withFetchWord 16 0xC30F, { s0.withFetchWord 16 0xC30F with report := .waitingForKey },
    by decide, rfl, by decide, rfl⟩
theorem witness_StepDependsOnMachineState_wait :
    ∃ s t : State, step s = .next t ∧ t.report = .waitingForKey :=
  ⟨s0.withFetchWord 16 0xF30A, _, rfl, by decide⟩
theorem witness_FontIsParameter :
    ∃ (font : Font) (s : State), font ≠ defaultFont ∧ s.mem = (State.resetWith font).mem ∧ (s.reg 4).toNat < 16 ∧
      s.reg 4 = 15 :=
  ⟨Vector.replicate 80 0xAA, (State.resetWith (Vector.replicate 80 0xAA)).setReg 4 15, by decide, rfl, by decide,
    by decide⟩
theorem witness_WaitingAccessor : ∃ s : State, s.waiting = true := ⟨s0.withFetchWord 16 0xF00A, by decide⟩
theorem witness_QuiescentStateStays : ∃ s : State, s.quiescent = true := ⟨s0.withFetchWord 16 0x1200, by decide⟩

end Sys2Proof.Tests
end

section
/-!
SUPPORT. Inversion of the instructions with a check of their own, and inductions over lists of events packaged once.
-/

namespace Sys2Proof.Machine

variable {s t : State}

/-! ### What a next state of 00EE, 2NNN and FX0A tells -/

theorem exec_ret_next (h : exec .ret s = .next t) :
    s.sp ≠ 0 ∧ t = { s.pop with pc := s.top, report := .ok } := by
  obtain ⟨_, he⟩ | ⟨hsp, he⟩ := exec_ret_cases s <;> rw [he] at h <;> cases h
  exact ⟨hsp, rfl⟩

theorem exec_call_next {nnn : BitVec 12} (h : exec (.call nnn) s = .next t) :
    ∃ hsp : s.sp.val < Config.stackDepth,
      t = { s.push (s.pc + 2) hsp with pc := addrOf nnn, report := .ok } := by
  obtain ⟨_, he⟩ | ⟨hsp, he⟩ := exec_call_cases nnn s <;> rw [he] at h <;> cases h
  exact ⟨hsp, rfl⟩

theorem exec_ldVxK_next {x : Reg} (h : exec (.ldVxK x) s = .next t) :
    ((∀ k, s.key k = false) ∧ t = { s with report := .waitingForKey }) ∨
    (∃ k, s.lowestKey = some k ∧ t = { s.setReg x (keyByte k) with pc := s.pc + 2, report := .ok }) := by
  obtain ⟨hno, he⟩ | ⟨k, hk, he⟩ := exec_ldVxK_cases x s <;> rw [he] at h <;> cases h
  · exact .inl ⟨hno, rfl⟩
  · exact .inr ⟨k, hk, rfl⟩

/-! ### The step at a recognised word -/

theorem step_of_fetch {w : Word} {i : Instr} (hf : s.fetch = some w) (hd : decodeWord w = some i) :
    step s = exec i s := by
  simp only [step, hf, hd]

theorem State.nextInstr_of_fetch {w : Word} {i : Instr} (hf : s.fetch = some w) (hd : decodeWord w = some i) :
    s.nextInstr = some i := by
  simp only [State.nextInstr, hf, Option.bind_some, hd]

/-! ### Lists of events -/

/-- An event either answers the state after it or leaves the state as it was. -/
theorem Event.after_cases (e : Event) (s : State) : e.apply s = .next (e.after s) ∨ e.after s = s := by
  cases h : e.apply s with
  | next t => exact .inl (by simp only [Event.after, h])
  | fault f => exact .inr (by simp only [Event.after, h])
  | refused r => exact .inr (by simp only [Event.after, h])

/-- What every event that answers a next state keeps, every list of events keeps. -/
theorem runEvents_keeps {P : State → Prop} (hP : ∀ e s t, P s → Event.apply e s = .next t → P t)
    (es : List Event) (hs : P s) : P (runEvents es s) := by
  induction es generalizing s with
  | nil => exact hs
  | cons e es ih =>
    obtain he | he := e.after_cases s
    · exact ih (hP e s _ hs he)
    · rw [runEvents, he]
      exact ih hs

end Sys2Proof.Machine
end

section
/-!
The step and its outcomes (rules R7, R10, R186).
-/

namespace Sys2Proof.Machine

variable {s : State}

/-- An instruction whose own check passes completes with outcome Ok; only 00EE, 2NNN and FX0A have one. -/
theorem exec_ok {i : Instr} (hret : ¬ (i = .ret ∧ s.sp = 0)) (hcall : ∀ nnn, ¬ (i = .call nnn ∧ s.sp = 16))
    (hkey : ∀ x, i = .ldVxK x → ∃ k, s.key k = true) : ∃ t, exec i s = .next t ∧ t.report = .ok := by
  cases i with
  | ret => exact ⟨_, exec_ret_of_ne fun hsp => hret ⟨rfl, hsp⟩, rfl⟩
  | call nnn => exact ⟨_, exec_call_of_lt nnn (sp_lt_of_ne fun hsp => hcall nnn ⟨rfl, hsp⟩), rfl⟩
  | ldVxK x =>
    obtain ⟨hno, _⟩ | ⟨_, _, he⟩ := exec_ldVxK_cases x s
    · obtain ⟨k, hk⟩ := hkey x rfl
      simp [hno k] at hk
    · exact ⟨_, he, rfl⟩
  | _ => exact ⟨_, rfl, rfl⟩

/-- Settles O7: the word the fetch reads is the two bytes at pc, and `step` dispatches on it. -/
theorem stepRunsDecodedInstruction : Obligations.StepRunsDecodedInstruction := by
  intro s i hpc hd
  exact step_of_fetch ((State.fetch_eq_some _).mpr ⟨hpc, rfl⟩) hd

/-- Settles O10: the three cases of `step_cases`, the decoded instruction split by the three checks of its own. -/
theorem stepOutcomes : Obligations.StepOutcomes := by
  intro s
  obtain ⟨hf, he⟩ | ⟨w, hf, hd, he⟩ | ⟨w, i, hf, hd, he⟩ := step_cases s
  · exact .inr (.inr (.inr (.inl ⟨he, State.fetch_eq_none.mp hf⟩)))
  · exact .inr (.inr (.inl ⟨w, hf, hd, he⟩))
  have hi := State.nextInstr_of_fetch hf hd
  by_cases hret : i = .ret ∧ s.sp = 0
  · obtain ⟨rfl, hsp⟩ := hret
    have hfault : exec .ret s = .fault (.stackUnderflow s.pc) :=
      (exec_ret_cases s).elim And.right fun h => absurd hsp h.1
    exact .inr (.inr (.inr (.inr (.inr ⟨he.trans hfault, hsp, hi⟩))))
  by_cases hcall : ∃ nnn, i = .call nnn ∧ s.sp = 16
  · obtain ⟨nnn, rfl, hsp⟩ := hcall
    have hfault : exec (.call nnn) s = .fault (.stackOverflow s.pc) :=
      (exec_call_cases nnn s).elim And.right fun ⟨h, _⟩ => absurd h (by simp [hsp])
    exact .inr (.inr (.inr (.inr (.inl ⟨he.trans hfault, hsp, nnn, hi⟩))))
  by_cases hwait : (∃ x, i = .ldVxK x) ∧ ∀ k, s.key k = false
  · obtain ⟨⟨x, rfl⟩, hno⟩ := hwait
    exact .inr (.inl ⟨he.trans (exec_ldVxK_wait x hno), ⟨x, hi⟩, hno⟩)
  have hcall' : ∀ nnn, ¬ (i = .call nnn ∧ s.sp = 16) := not_exists.mp hcall
  have hkey : ∀ x, i = .ldVxK x → ∃ k, s.key k = true := fun x hx => by
    simpa using not_and.mp hwait ⟨x, hx⟩
  obtain ⟨t, ht, hok⟩ := exec_ok hret hcall' hkey
  exact .inl ⟨t, i, he.trans ht, hok, hi, hret, hcall', hkey⟩

end Sys2Proof.Machine
end

section
/-!
SUPPORT. The frame of each update of the state (rule R8): an update inside a write set keeps the frame of that set,
so the frame of an instruction is read off the chain of its updates.
-/

namespace Sys2Proof.Machine

variable {w : Writes} {s t : State}

theorem Frame.refl (w : Writes) (s : State) : Frame w s s :=
  ⟨fun _ _ => rfl, fun _ => rfl, fun _ _ => rfl, fun _ => rfl, fun _ => rfl, fun _ => rfl, fun _ _ _ => rfl,
    fun _ => rfl, fun _ _ => rfl, fun _ => rfl⟩

/-- The pc and the report are in no write set. -/
theorem Frame.ended (h : Frame w s t) (p : Word) (r : Report) : Frame w s { t with pc := p, report := r } := h

theorem Frame.setReg (h : Frame w s t) {x : Reg} (hx : x ∈ w.regs) (b : Byte) : Frame w s (t.setReg x b) := by
  obtain ⟨hreg, hrest⟩ := h
  refine ⟨fun r hr => ?_, hrest⟩
  rw [State.reg_setReg_of_ne _ _ (ne_of_mem_of_not_mem hx hr).symm, hreg r hr]

theorem Frame.setFlag (h : Frame w s t) (hx : flagReg ∈ w.regs) (f : Byte) : Frame w s (t.setFlag f) :=
  h.setReg hx f

theorem Frame.loadRegs (h : Frame w s t) {x : Reg} (hx : ∀ r ≤ x, r ∈ w.regs) : Frame w s (t.loadRegs x) := by
  obtain ⟨hreg, hrest⟩ := h
  refine ⟨fun r hr => ?_, hrest⟩
  rw [State.reg_loadRegs, if_neg fun hle => hr (hx r hle), hreg r hr]

theorem Frame.setI (h : Frame w s t) (hw : w.index = true) (i : Word) : Frame w s (t.setI i) := by
  obtain ⟨hreg, _, hrest⟩ := h
  exact ⟨hreg, fun hn => by simp [hw] at hn, hrest⟩

theorem Frame.push (h : Frame w s t) (hslot : t.sp.val ∈ w.stackSlots) (hw : w.sp = true) (a : Word)
    (hsp : t.sp.val < Config.stackDepth) : Frame w s (t.push a hsp) := by
  obtain ⟨hreg, hi, hstack, _, hrest⟩ := h
  refine ⟨hreg, hi, fun k hk => ?_, fun hn => by simp [hw] at hn, hrest⟩
  rw [State.push_stack_getElem, if_neg (ne_of_mem_of_not_mem hslot hk).symm, hstack k hk]

theorem Frame.pop (h : Frame w s t) (hw : w.sp = true) : Frame w s t.pop := by
  obtain ⟨hreg, hi, hstack, _, hrest⟩ := h
  exact ⟨hreg, hi, hstack, fun hn => by simp [hw] at hn, hrest⟩

theorem Frame.setDt (h : Frame w s t) (hw : w.dt = true) (b : Byte) : Frame w s (t.setDt b) := by
  obtain ⟨hreg, hi, hstack, hsp, _, hrest⟩ := h
  exact ⟨hreg, hi, hstack, hsp, fun hn => by simp [hw] at hn, hrest⟩

theorem Frame.setSt (h : Frame w s t) (hw : w.st = true) (b : Byte) : Frame w s (t.setSt b) := by
  obtain ⟨hreg, hi, hstack, hsp, hdt, _, hrest⟩ := h
  exact ⟨hreg, hi, hstack, hsp, hdt, fun hn => by simp [hw] at hn, hrest⟩

theorem Frame.setFb (h : Frame w s t) (hw : w.fb = true) (fb : Framebuffer) : Frame w s (t.setFb fb) := by
  obtain ⟨hreg, hi, hstack, hsp, hdt, hst, _, hrest⟩ := h
  exact ⟨hreg, hi, hstack, hsp, hdt, hst, fun hn => by simp [hw] at hn, hrest⟩

theorem Frame.setMem (h : Frame w s t) {m : Memory} (hm : ∀ a, a ∉ w.addrs → m.read a = t.mem.read a) :
    Frame w s (t.setMem m) := by
  obtain ⟨hreg, hi, hstack, hsp, hdt, hst, hfb, hkey, hmem, hdraws⟩ := h
  exact ⟨hreg, hi, hstack, hsp, hdt, hst, hfb, hkey, fun a ha => (hm a ha).trans (hmem a ha), hdraws⟩

theorem Frame.drawn (h : Frame w s t) (hw : w.draws = true) : Frame w s t.drawn := by
  obtain ⟨hreg, hi, hstack, hsp, hdt, hst, hfb, hkey, hmem, _⟩ := h
  exact ⟨hreg, hi, hstack, hsp, hdt, hst, hfb, hkey, hmem, fun hn => by simp [hw] at hn⟩

theorem mem_blockAddrs {i : Word} {n a : Nat} : a ∈ blockAddrs i n ↔ ∃ k < n, ea i k = a := by
  simp [blockAddrs]

/-- A block store at I changes no byte outside the block's addresses (rules R54, R143, R144). -/
theorem Memory.read_writeBlock_of_notMem_blockAddrs (m : Memory) {i : Word} {bs : List Byte} {a : Nat}
    (ha : a ∉ blockAddrs i bs.length) : (m.writeBlock i 0 bs).read a = m.read a := by
  refine m.read_writeBlock_outside i 0 bs a fun j _ hj he => ha ?_
  exact mem_blockAddrs.mpr ⟨j, by omega, he.symm⟩

/-- Settles O50: each instruction is a chain of updates inside the write set its row names. -/
theorem frameOfEveryInstruction : Obligations.FrameOfEveryInstruction := by
  intro i s t h
  have hs := Frame.refl (writes i s) s
  cases i with
  | ret =>
    obtain ⟨_, rfl⟩ := exec_ret_next h
    exact (hs.pop rfl).ended _ _
  | call nnn =>
    obtain ⟨hsp, rfl⟩ := exec_call_next h
    exact (hs.push (List.mem_singleton.mpr rfl) rfl _ hsp).ended _ _
  | ldVxK x =>
    obtain ⟨_, rfl⟩ | ⟨k, _, rfl⟩ := exec_ldVxK_next h
    · exact hs.ended _ _
    · exact (hs.setReg (List.mem_singleton.mpr rfl) _).ended _ _
  | jp | jpV0 | seImm | sneImm | seReg | sneReg | skp | sknp =>
    cases h
    exact hs.ended _ _
  | ldImm | addImm | ldReg | orReg | andReg | xorReg | ldVxDt =>
    cases h
    exact (hs.setReg (List.mem_singleton.mpr rfl) _).ended _ _
  | addReg | sub | shr | subn | shl =>
    cases h
    exact ((hs.setReg List.mem_cons_self _).setFlag (by simp [writes]) _).ended _ _
  | rnd =>
    cases h
    exact ((hs.drawn rfl).setReg (List.mem_singleton.mpr rfl) _).ended _ _
  | cls =>
    cases h
    exact (hs.setFb rfl _).ended _ _
  | drw =>
    cases h
    exact ((hs.setFb rfl _).setFlag (List.mem_singleton.mpr rfl) _).ended _ _
  | ldI | ldF =>
    cases h
    exact (hs.setI rfl _).ended _ _
  | addI =>
    cases h
    exact ((hs.setI rfl _).setFlag (List.mem_singleton.mpr rfl) _).ended _ _
  | ldDtVx =>
    cases h
    exact (hs.setDt rfl _).ended _ _
  | ldStVx =>
    cases h
    exact (hs.setSt rfl _).ended _ _
  | ldB x =>
    cases h
    exact (hs.setMem fun a ha =>
      s.mem.read_writeBlock_of_notMem_blockAddrs (bs := bcdDigits (s.reg x)) ha).ended _ _
  | ldMemVx x =>
    cases h
    refine (hs.setMem fun a ha => s.mem.read_writeBlock_of_notMem_blockAddrs ?_).ended _ _
    rwa [State.length_regBlock]
  | ldVxMem x =>
    cases h
    exact (hs.loadRegs (x := x) fun r hr => by simp [writes, hr]).ended _ _

end Sys2Proof.Machine
end

section
/-!
The parameter FONT (rules R4, R61, R142).
-/

namespace Sys2Proof.Machine

variable {s t : State}

/-- No instruction changes FONT; the two that store, FX33 and FX55, list bytes beside it. -/
theorem exec_font {i : Instr} (h : exec i s = .next t) : t.mem.font = s.mem.font := by
  cases i with
  | ret =>
    obtain ⟨_, rfl⟩ := exec_ret_next h
    rfl
  | call nnn =>
    obtain ⟨_, rfl⟩ := exec_call_next h
    rfl
  | ldVxK x => obtain ⟨_, rfl⟩ | ⟨_, _, rfl⟩ := exec_ldVxK_next h <;> rfl
  | ldB | ldMemVx =>
    cases h
    exact Memory.font_writeBlock _ _ _ _
  | _ =>
    cases h
    rfl

theorem step_font (h : step s = .next t) : t.mem.font = s.mem.font := by
  obtain ⟨_, he⟩ | ⟨w, _, _, he⟩ | ⟨_, _, _, _, he⟩ := step_cases s <;> rw [he] at h
  · cases h
  · rw [(State.unknownOpcode_next w).mp h]
  · exact exec_font h

theorem Event.apply_font {e : Event} (h : e.apply s = .next t) : t.mem.font = s.mem.font := by
  cases e with
  | step => exact step_font h
  | load image =>
    have he : s.load image = .next t := h
    obtain ⟨_, hl⟩ | ⟨_, hl⟩ := State.load_cases (s := s) image <;> rw [hl] at he <;> cases he
    exact Memory.font_writeBytes _ _ _
  | reset | tick | setKey =>
    cases h
    rfl

theorem runEvents_font (es : List Event) (s : State) : (runEvents es s).mem.font = s.mem.font :=
  runEvents_keeps (P := fun u => u.mem.font = s.mem.font) (fun _ _ _ hu h => (Event.apply_font h).trans hu) es rfl

/-- Memory after reset holds FONT from address 0 on (rules R34, R61). -/
theorem read_resetWith_font (font : Font) {a : Nat} (ha : a < 80) :
    some ((State.resetWith font).mem.read a) = font[a]? := by
  rw [State.resetWith_mem, Memory.read_nil, dif_pos ha, Vector.getElem?_eq_getElem ha]

/-- The glyph address is 5 times the whole byte, with no wrap (rule R142). -/
@[simp] theorem glyphAddr_toNat (b : Byte) : (glyphAddr b).toNat = 5 * b.toNat := by
  have hb := b.isLt
  rw [glyphAddr, BitVec.toNat_ofNat, Nat.mod_eq_of_lt (by omega)]

/-- Settles O58: reset lays out FONT from 0 on, FX29 computes the address of a digit's rows, and no event changes
FONT. -/
theorem fontIsParameter : Obligations.FontIsParameter := by
  refine ⟨fun font d r hd hr => read_resetWith_font font (by omega), fun font x s hmem hx => ?_, runEvents_font⟩
  refine ⟨_, exec_ldF_eq x, fun r hr => ?_⟩
  have hread := read_resetWith_font font (show 5 * (s.reg x).toNat + r < 80 by omega)
  simpa only [State.setI_i, State.setI_mem, glyphAddr_toNat, hmem] using hread

end Sys2Proof.Machine
end

section
/-!
What a step depends on: of `report` nothing, of the rest of the host's side the byte CXNN draws, of the stack the live
slots (rules R24, R25, R32).
-/

namespace Sys2Proof.Machine

variable {s t : State}

/-! ### The step, by the instruction at pc -/

theorem step_of_nextInstr {i : Instr} (h : s.nextInstr = some i) : step s = exec i s := by
  obtain ⟨w, hf, hd⟩ := Option.bind_eq_some_iff.mp h
  exact step_of_fetch hf hd

theorem step_of_unrecognised {w : Word} (hf : s.fetch = some w) (hd : decodeWord w = none) :
    step s = s.unknownOpcode w := by
  simp only [step, hf, hd]

theorem State.fetch_congr (hpc : t.pc = s.pc) (hmem : t.mem = s.mem) : t.fetch = s.fetch := by
  rw [State.fetch, State.fetch, hpc, hmem]

theorem State.nextInstr_congr (hpc : t.pc = s.pc) (hmem : t.mem = s.mem) : t.nextInstr = s.nextInstr := by
  rw [State.nextInstr, State.nextInstr, State.fetch_congr hpc hmem]

/-- The fatal errors of a step, and their payloads, depend on pc, the word there and sp alone (rules R181 to R183). -/
theorem step_fault_congr (hpc : t.pc = s.pc) (hmem : t.mem = s.mem) (hsp : t.sp = s.sp) {f : Fault}
    (h : step s = .fault f) : step t = .fault f := by
  have hnext := State.nextInstr_congr hpc hmem
  obtain ⟨_, _, he, _⟩ | ⟨he, _⟩ | ⟨_, _, _, he⟩ | ⟨he, hbound⟩ | ⟨he, hfull, nnn, hi⟩ | ⟨he, hempty, hi⟩ :=
    stepOutcomes s <;> rw [he] at h <;> cases h
  · have hf : t.fetch = none := State.fetch_eq_none.mpr (hpc ▸ hbound)
    simp only [step, hf, State.raise, hpc]
  · rw [step_of_nextInstr (hnext.trans hi)]
    obtain ⟨_, ht⟩ | ⟨hlt, _⟩ := exec_call_cases nnn t
    · rw [ht, hpc]
    · simp [hsp, hfull] at hlt
  · rw [step_of_nextInstr (hnext.trans hi)]
    obtain ⟨_, ht⟩ | ⟨hne, _⟩ := exec_ret_cases t
    · rw [ht, hpc]
    · exact absurd (hsp.trans hempty) hne

/-- A relation between next states holds of the steps of two states with one pc and memory when it holds of the
instruction there and of UnknownOpcode. -/
theorem step_next_of_exec_next {R : State → State → Prop} (hpc : t.pc = s.pc) (hmem : t.mem = s.mem)
    (hunknown : ∀ w, R { s with pc := s.pc + 2, report := .unknownOpcode s.pc w }
      { t with pc := t.pc + 2, report := .unknownOpcode t.pc w })
    (hexec : ∀ i s', s.nextInstr = some i → exec i s = .next s' → ∃ t', exec i t = .next t' ∧ R s' t') :
    ∀ s', step s = .next s' → ∃ t', step t = .next t' ∧ R s' t' := by
  intro s' h
  have hfetch := State.fetch_congr hpc hmem
  obtain ⟨_, he⟩ | ⟨w, hf, hd, he⟩ | ⟨w, i, hf, hd, he⟩ := step_cases s <;> rw [he] at h
  · cases h
  · rw [(State.unknownOpcode_next w).mp h]
    exact ⟨_, step_of_unrecognised (hfetch.trans hf) hd, hunknown w⟩
  · rw [step_of_fetch (hfetch.trans hf) hd]
    exact hexec i s' (State.nextInstr_of_fetch hf hd) h

/-! ### The report -/

/-- Every answer sets the report, so the one before it is not read. -/
theorem exec_report (i : Instr) (s : State) (r : Report) : exec i { s with report := r } = exec i s := by
  cases i <;> rfl

/-- Settles O53: neither the fetch nor an answer of the step reads the report. -/
theorem reportIsNeverRead : Obligations.ReportIsNeverRead := by
  intro s r
  have hfetch : ({ s with report := r } : State).fetch = s.fetch := rfl
  obtain ⟨hf, he⟩ | ⟨w, hf, hd, he⟩ | ⟨w, i, hf, hd, he⟩ := step_cases s <;> rw [he]
  · simp only [step, hfetch, hf, State.raise]
  · exact step_of_unrecognised (hfetch.trans hf) hd
  · rw [step_of_fetch (hfetch.trans hf) hd, exec_report]

/-! ### The machine state and CXNN's random byte (rules R9, R32) -/

/-- Whatever the host's side holds, an instruction answers the same machine state and outcome, CXNN where it is given
the same byte. -/
theorem exec_next_host {i : Instr} {s s' : State} {n : Nat} (r : Report)
    (hrnd : ∀ x nn, i = .rnd x nn → Config.rnd s.draws = Config.rnd n) (h : exec i s = .next s') :
    ∃ t', exec i { s with draws := n, report := r } = .next t' ∧
      t'.toMachineState = s'.toMachineState ∧ t'.report = s'.report := by
  cases i with
  | rnd x nn =>
    cases h
    refine ⟨_, exec_rnd_eq x nn, ?_, rfl⟩
    rw [hrnd x nn rfl]
    rfl
  | ret =>
    obtain ⟨hsp, rfl⟩ := exec_ret_next h
    exact ⟨_, exec_ret_of_ne hsp, rfl, rfl⟩
  | call nnn =>
    obtain ⟨hsp, rfl⟩ := exec_call_next h
    exact ⟨_, exec_call_of_lt (s := { s with draws := n, report := r }) nnn hsp, rfl, rfl⟩
  | ldVxK x =>
    obtain ⟨hno, rfl⟩ | ⟨k, hk, rfl⟩ := exec_ldVxK_next h
    · exact ⟨_, exec_ldVxK_wait x hno, rfl, rfl⟩
    · exact ⟨_, exec_ldVxK_of_lowest x k hk, rfl, rfl⟩
  | _ =>
    cases h
    exact ⟨_, rfl, rfl, rfl⟩

theorem Event.after_load (image : List Byte) (s : State) :
    (Event.load image).after s = if image.length ≤ Config.progMax then
      { s with mem := s.mem.writeBytes Config.progBase image, report := .ok } else s := by
  obtain ⟨hlen, he⟩ | ⟨hlen, he⟩ := State.load_cases (s := s) image
  · rw [if_pos hlen, Event.after, Event.apply, he]
  · rw [if_neg (Nat.not_le.mpr hlen), Event.after, Event.apply, he]

/-- Reset, Load, Tick and SetKey read nothing of the host's side. -/
theorem Event.after_host {e : Event} (he : e ≠ .step) (s : State) (n : Nat) (r : Report) :
    (e.after { s with draws := n, report := r }).toMachineState = (e.after s).toMachineState := by
  cases e with
  | step => exact absurd rfl he
  | load image =>
    rw [Event.after_load, Event.after_load]
    split <;> rfl
  | reset | tick | setKey => rfl

/-- WaitingForKey changes nothing else: of the outcomes of a step it belongs to the key wait alone (rule R163). -/
theorem step_waiting_machineState (h : step s = .next t) (hr : t.report = .waitingForKey) :
    t.toMachineState = s.toMachineState := by
  obtain ⟨u, _, he, hok, _⟩ | ⟨he, _⟩ | ⟨_, _, _, he⟩ | ⟨he, _⟩ | ⟨he, _⟩ | ⟨he, _⟩ :=
    stepOutcomes s <;> rw [he] at h <;> cases h
  · rw [hok] at hr
    cases hr
  · rfl
  · cases hr

/-- Settles O57: states with one machine state differ in the host's side alone, of which only CXNN reads, and only its
byte. -/
theorem stepDependsOnMachineState : Obligations.StepDependsOnMachineState := by
  refine ⟨fun s t hst hrnd => ?_, fun e s t he hst => ?_, fun s t => step_waiting_machineState⟩
  · have hpc : t.pc = s.pc := congrArg MachineState.pc hst.symm
    have hmem : t.mem = s.mem := congrArg MachineState.mem hst.symm
    have hsp : t.sp = s.sp := congrArg MachineState.sp hst.symm
    refine ⟨step_next_of_exec_next hpc hmem (fun w => ?_) fun i u hi hu => ?_,
      fun f => step_fault_congr hpc hmem hsp⟩
    · rw [State.eq_of_machine hst]
      exact ⟨rfl, rfl⟩
    · rw [State.eq_of_machine hst]
      exact exec_next_host _ (fun x nn hx => hrnd x nn (hx ▸ hi)) hu
  · rw [State.eq_of_machine hst]
    exact (Event.after_host he s _ _).symm

/-! ### Dead stack slots (rules R24, R25, decision D7) -/

theorem EqLive.pc (h : EqLive s t) : t.pc = s.pc := by
  rw [h.2]

theorem EqLive.mem (h : EqLive s t) : t.mem = s.mem := by
  rw [h.2]

theorem EqLive.sp (h : EqLive s t) : t.sp = s.sp := by
  rw [h.2]

theorem EqLive.top (h : EqLive s t) (hsp : s.sp ≠ 0) : t.top = s.top := by
  obtain ⟨hlive, ht⟩ := h
  have hpos : s.sp.val ≠ 0 := fun h0 => hsp (Fin.ext h0)
  have hlt := s.sp.isLt
  have hread := hlive ⟨s.sp.val - 1, by omega⟩ (by simp only; omega)
  rw [ht]
  exact hread

theorem EqLive.pop (h : EqLive s t) : EqLive s.pop t.pop := by
  obtain ⟨hlive, ht⟩ := h
  refine ⟨fun k hk => hlive k (Nat.lt_of_lt_of_le hk (Nat.sub_le _ _)), ?_⟩
  rw [ht]
  rfl

theorem EqLive.push (h : EqLive s t) (w : Word) (hs : s.sp.val < Config.stackDepth)
    (ht : t.sp.val < Config.stackDepth) : EqLive (s.push w hs) (t.push w ht) := by
  have hsp := h.sp
  obtain ⟨hlive, heq⟩ := h
  refine ⟨fun k hk => ?_, ?_⟩
  · rw [State.push_stack_getElem, State.push_stack_getElem, hsp]
    split
    · rfl
    · rename_i hne
      simp only [State.push_sp] at hk
      exact hlive k (by omega)
  · generalize t.stack = stack at heq
    subst heq
    rfl

theorem EqLive.ended (h : EqLive s t) (p : Word) (r : Report) :
    EqLive { s with pc := p, report := r } { t with pc := p, report := r } := by
  obtain ⟨hlive, ht⟩ := h
  refine ⟨hlive, ?_⟩
  rw [ht]

/-- Every instruction keeps live equality: 00EE reads a live slot, 2NNN writes one slot alike in both states, and no
other instruction names the stack. -/
theorem exec_next_eqLive {i : Instr} {s t s' : State} (hst : EqLive s t) (h : exec i s = .next s') :
    ∃ t', exec i t = .next t' ∧ EqLive s' t' := by
  have hsp := hst.sp
  cases i with
  | ret =>
    obtain ⟨hne, rfl⟩ := exec_ret_next h
    refine ⟨_, exec_ret_of_ne (hsp ▸ hne), ?_⟩
    rw [hst.top hne]
    exact hst.pop.ended _ _
  | call nnn =>
    obtain ⟨hlt, rfl⟩ := exec_call_next h
    refine ⟨_, exec_call_of_lt nnn (hsp ▸ hlt), ?_⟩
    rw [hst.pc]
    exact (hst.push _ _ _).ended _ _
  | ldVxK x =>
    obtain ⟨hlive, ht⟩ := hst
    rw [ht]
    obtain ⟨hno, rfl⟩ | ⟨k, hk, rfl⟩ := exec_ldVxK_next h
    · exact ⟨_, exec_ldVxK_wait x hno, hlive, rfl⟩
    · exact ⟨_, exec_ldVxK_of_lowest x k hk, hlive, rfl⟩
  | _ =>
    obtain ⟨hlive, ht⟩ := hst
    rw [ht]
    cases h
    exact ⟨_, rfl, hlive, rfl⟩

/-- Settles O54: live-equal states fetch the same word, so the instruction there decides. -/
theorem deadStackSlotsUnobservable : Obligations.DeadStackSlotsUnobservable := by
  intro s t hst
  refine ⟨step_next_of_exec_next hst.pc hst.mem (fun w => ?_) fun _ _ _ => exec_next_eqLive hst,
    fun f => step_fault_congr hst.pc hst.mem hst.sp⟩
  rw [hst.pc]
  exact hst.ended _ _

end Sys2Proof.Machine
end

section
/-!
Where an instruction leaves pc (rules R7, R23), the values of a reset (rules R34, R210), and the invariant of rule R31.
-/

namespace Sys2Proof.Machine

variable {s t : State}

/-! ### The program counter -/

/-- Settles O51: each answer sets pc to the entry of the instruction's row; a skip's test is read as its condition. -/
theorem pcOfEveryInstruction : Obligations.PcOfEveryInstruction := by
  intro i s t h
  cases i with
  | ret =>
    obtain ⟨_, rfl⟩ := exec_ret_next h
    rfl
  | call nnn =>
    obtain ⟨_, rfl⟩ := exec_call_next h
    rfl
  | ldVxK x =>
    obtain ⟨hno, rfl⟩ | ⟨k, hk, rfl⟩ := exec_ldVxK_next h
    · exact (if_pos hno).symm
    · have hsome : ¬ ∀ k, s.key k = false := fun hno => by
        simp [s.lowestKey_eq_none.mpr hno] at hk
      exact (if_neg hsome).symm
  | seImm | seReg =>
    cases h
    simp only [pcAfter, beq_iff_eq]
  | sneImm | sneReg =>
    cases h
    simp only [pcAfter, bne_iff_ne]
  | sknp =>
    cases h
    simp only [pcAfter, Bool.not_eq_true']
  | _ =>
    cases h
    rfl

/-! ### Reset -/

@[simp] theorem State.reg_resetWith (f : Font) (r : Reg) : (State.resetWith f).reg r = 0 := by
  simp [State.reg]

@[simp] theorem State.key_resetWith (f : Font) (k : KeyIndex) : (State.resetWith f).key k = false := by
  simp [State.key]

@[simp] theorem State.pixel_resetWith (f : Font) (x : Fin 64) (y : Fin 32) :
    (State.resetWith f).pixel x y = false :=
  Framebuffer.pixel_clear x y

theorem State.stack_resetWith (f : Font) (k : Fin 16) : (State.resetWith f).stack[k] = 0 := by
  simp

/-- Above FONT memory after reset is 0 (rule R34). -/
theorem read_resetWith_of_le (f : Font) {a : Nat} (h : 80 ≤ a) : (State.resetWith f).mem.read a = 0 := by
  rw [State.resetWith_mem, Memory.read_nil, dif_neg (Nat.not_lt.mpr h)]

/-- Settles O46: the state after Reset is `State.resetWith` of the machine's own FONT, but for `draws`. -/
theorem resetValues : Obligations.ResetValues := by
  intro s
  have hfont : ∀ a (h : a < 80), s.resetEvent.mem.read a = s.mem.font[a] := fun a h =>
    Option.some_inj.mp ((read_resetWith_font s.mem.font h).trans (Vector.getElem?_eq_getElem h))
  exact ⟨s.resetEvent, rfl, State.reg_resetWith _, rfl, rfl, State.stack_resetWith _, rfl, rfl, rfl,
    State.pixel_resetWith _, State.key_resetWith _, hfont, fun _ => read_resetWith_of_le _, rfl, rfl, rfl⟩

/-! ### The invariant at reset -/

theorem State.inv_resetWith (f : Font) : (State.resetWith f).Inv :=
  ⟨by simp, by simp, fun k => .inl (State.stack_resetWith f k), Memory.wf_nil f⟩

/-- Settles O47: at reset I and the stack are 0, pc is 0x200 and no byte is listed. -/
theorem invariantAtReset : Obligations.InvariantAtReset :=
  ⟨State.inv_resetWith, State.inv_resetWith defaultFont⟩

/-! ### The invariant, one conjunct at a time -/

theorem addrOf_le (nnn : BitVec 12) : (addrOf nnn).toNat ≤ 0xFFF := by
  have := nnn.isLt
  rw [addrOf_toNat]
  omega

theorem Frame.index {w : Writes} (h : Frame w s t) (hw : w.index = false) : t.i = s.i := by
  obtain ⟨_, hi, _⟩ := h
  exact hi hw

theorem Frame.stack {w : Writes} (h : Frame w s t) {k : Fin 16} (hk : k.val ∉ w.stackSlots) :
    t.stack[k] = s.stack[k] := by
  obtain ⟨_, _, hstack, _⟩ := h
  exact hstack k hk

/-- The three instructions that write I leave it a 12-bit address (rules R140 to R142). -/
theorem exec_index_le {i : Instr} (hi : s.i.toNat ≤ 0xFFF) (h : exec i s = .next t) : t.i.toNat ≤ 0xFFF := by
  have hframe := (frameOfEveryInstruction i s t h).index
  cases i with
  | ldI nnn =>
    cases h
    exact addrOf_le nnn
  | addI x =>
    cases h
    have hea : _ < 4096 := Memory.ea_lt s.i (s.reg x).toNat
    change (BitVec.ofNat 16 (ea s.i (s.reg x).toNat)).toNat ≤ 0xFFF
    rw [BitVec.toNat_ofNat]
    omega
  | ldF x =>
    cases h
    have hx := (s.reg x).isLt
    change (glyphAddr (s.reg x)).toNat ≤ 0xFFF
    rw [glyphAddr_toNat]
    omega
  | _ =>
    rw [hframe rfl]
    exact hi

/-- After a fetch within bounds pc0 + 2 and pc0 + 4 do not wrap, a popped entry is at most 0x1000, and the largest
target is that of BNNN, 0xFFF + 0xFF (rule R31). -/
theorem pcAfter_le (hpc : s.pc.toNat + 1 ≤ 0xFFF) (hstack : ∀ k : Fin 16, StackEntryOk s.stack[k]) (i : Instr) :
    (pcAfter i s).toNat ≤ 0x10FE := by
  have h2 : (s.pc + 2).toNat ≤ 0x10FE := by bv_omega
  have h4 : (s.pc + 4).toNat ≤ 0x10FE := by bv_omega
  cases i with
  | ret =>
    have hlt := s.sp.isLt
    obtain h0 | ⟨_, hle⟩ : StackEntryOk s.top := hstack ⟨s.sp.val - 1, by omega⟩
    · change s.top.toNat ≤ 0x10FE
      rw [h0]
      decide
    · exact Nat.le_trans hle (by decide)
  | jp nnn | call nnn => exact Nat.le_trans (addrOf_le nnn) (by decide)
  | jpV0 nnn =>
    have hnnn := addrOf_le nnn
    have hv := (s.reg 0).isLt
    change (addrOf nnn + (s.reg 0).setWidth 16).toNat ≤ 0x10FE
    rw [BitVec.toNat_add, BitVec.toNat_setWidth]
    omega
  | seImm | sneImm | seReg | sneReg | skp | sknp =>
    simp only [pcAfter]
    split
    · exact h4
    · exact h2
  | ldVxK =>
    simp only [pcAfter]
    split
    · omega
    · exact h2
  | _ => exact h2

/-- The only entry written is the return address of a call, pc0 + 2 (rule R102, decision D6). -/
theorem exec_stack_ok {i : Instr} (hpc : s.pc.toNat + 1 ≤ 0xFFF) (hstack : ∀ k : Fin 16, StackEntryOk s.stack[k])
    (h : exec i s = .next t) (k : Fin 16) : StackEntryOk t.stack[k] := by
  have hframe := (frameOfEveryInstruction i s t h).stack (k := k)
  cases i with
  | call nnn =>
    obtain ⟨hsp, rfl⟩ := exec_call_next h
    change StackEntryOk (s.push (s.pc + 2) hsp).stack[k]
    rw [State.push_stack_getElem]
    split
    · exact .inr (by bv_omega)
    · exact hstack k
  | _ =>
    rw [hframe List.not_mem_nil]
    exact hstack k

/-- The two instructions that store, FX33 and FX55, store a block at I; no other changes memory. -/
theorem exec_mem {i : Instr} (h : exec i s = .next t) :
    t.mem = s.mem ∨ ∃ bs, t.mem = s.mem.writeBlock s.i 0 bs := by
  cases i with
  | ret =>
    obtain ⟨_, rfl⟩ := exec_ret_next h
    exact .inl rfl
  | call nnn =>
    obtain ⟨_, rfl⟩ := exec_call_next h
    exact .inl rfl
  | ldVxK x => obtain ⟨_, rfl⟩ | ⟨_, _, rfl⟩ := exec_ldVxK_next h <;> exact .inl rfl
  | ldB | ldMemVx =>
    cases h
    exact .inr ⟨_, rfl⟩
  | _ =>
    cases h
    exact .inl rfl

theorem exec_mem_wf {i : Instr} (hwf : s.mem.wf) (h : exec i s = .next t) : t.mem.wf := by
  obtain hm | ⟨bs, hm⟩ := exec_mem h <;> rw [hm]
  · exact hwf
  · exact Memory.wf_writeBlock _ _ _ hwf

/-! ### The invariant -/

theorem exec_keeps_inv {i : Instr} (hs : s.Inv) (hpc : s.pc.toNat + 1 ≤ 0xFFF) (h : exec i s = .next t) :
    t.Inv := by
  obtain ⟨hi, _, hstack, hwf⟩ := hs
  refine ⟨exec_index_le hi h, ?_, exec_stack_ok hpc hstack h, exec_mem_wf hwf h⟩
  rw [pcOfEveryInstruction i s t h]
  exact pcAfter_le hpc hstack i

/-- Settles O48: a step that answers a next state has fetched, so pc is below 0xFFF, and the instruction or
UnknownOpcode keeps each conjunct. -/
theorem stepKeepsInvariant : Obligations.StepKeepsInvariant := by
  intro s t hs h
  obtain ⟨_, he⟩ | ⟨w, hf, _, he⟩ | ⟨w, i, hf, _, he⟩ := step_cases s <;> rw [he] at h
  · cases h
  · obtain ⟨hpc, _⟩ := (State.fetch_eq_some w).mp hf
    obtain ⟨hi, _, hrest⟩ := hs
    rw [(State.unknownOpcode_next w).mp h]
    exact ⟨hi, by bv_omega, hrest⟩
  · exact exec_keeps_inv hs ((State.fetch_eq_some w).mp hf).1 h

theorem load_keeps_inv {image : List Byte} (hs : s.Inv) (h : s.load image = .next t) : t.Inv := by
  obtain ⟨hi, hpc, hstack, hwf⟩ := hs
  obtain ⟨hlen, he⟩ | ⟨_, he⟩ := State.load_cases (s := s) image <;> rw [he] at h <;> cases h
  have hfits : Config.progBase + image.length ≤ Config.memBytes := by
    simp only [Config.progMax, Config.progBase, Config.memBytes] at *
    omega
  exact ⟨hi, hpc, hstack, Memory.wf_writeBytes hfits hwf⟩

theorem Event.apply_keeps_inv {e : Event} (hs : s.Inv) (h : e.apply s = .next t) : t.Inv := by
  cases e with
  | step => exact stepKeepsInvariant s t hs h
  | load image => exact load_keeps_inv hs h
  | reset =>
    cases h
    exact State.inv_resetWith s.mem.font
  | tick | setKey =>
    cases h
    exact hs

/-- Settles O49: every event that answers a next state keeps the invariant, so every list of events does. -/
theorem eventsKeepInvariant : Obligations.EventsKeepInvariant :=
  fun es _ hs => runEvents_keeps (fun _ _ _ => Event.apply_keeps_inv) es hs

end Sys2Proof.Machine
end

section
/-!
Memory (20_memory.md): a store is coherent with the next fetch (rules R52, R60), and the canonical form is determined
by what memory reads.
-/

namespace Sys2Proof.Machine

variable {s : State}

/-! ### Fetch after a store -/

/-- FX55 puts V[k] at ea(k) (rule R144). -/
theorem State.read_writeBlock_regBlock {x k : Reg} (hk : k ≤ x) :
    (s.mem.writeBlock s.i 0 (s.regBlock x)).read (ea s.i k.val) = s.reg k := by
  have hlen : k.val < (s.regBlock x).length := by
    rw [State.length_regBlock]
    exact Nat.lt_succ_of_le hk
  have hfits : 0 + (s.regBlock x).length ≤ Config.memBytes := by
    have hx := x.isLt
    simp only [State.length_regBlock, Config.memBytes]
    omega
  have hread := Memory.read_writeBlock_inside s.mem s.i 0 (s.regBlock x) k.val hlen hfits
  rwa [Nat.zero_add, State.getElem_regBlock x k hk] at hread

/-- No mask shows where the unbounded sum stays inside memory (rule R54). -/
theorem ea_of_le {i : Word} {k : Nat} (h : i.toNat + k ≤ 0xFFF) : ea i k = i.toNat + k :=
  Nat.mod_eq_of_lt (Nat.lt_succ_of_le h)

/-- Settles O35: the fetch reads the word at I, whose two bytes are those FX55 puts at ea(0) and ea(1). -/
theorem storedWordIsFetched : Obligations.StoredWordIsFetched := by
  intro x s hx hi
  refine ⟨_, exec_ldMemVx_eq x, (State.fetch_eq_some _).mpr ⟨hi, ?_⟩⟩
  have hhigh := State.read_writeBlock_regBlock (s := s) (Fin.zero_le x)
  have hlow := State.read_writeBlock_regBlock (s := s) (x := x) (k := 1) hx
  rw [Fin.val_zero, ea_of_le (by omega), Nat.add_zero] at hhigh
  rw [Fin.val_one, ea_of_le hi] at hlow
  exact congrArg₂ (· ++ ·) hhigh hlow

/-! ### The canonical form -/

/-- In a list of rising addresses the byte found at an address is the only one listed there. -/
theorem lookupCell_eq_some_iff {l : List Host.Cell} (hl : l.Pairwise (fun c d => c.1 < d.1)) {a : Nat} {b : Byte} :
    lookupCell l a = some b ↔ (a, b) ∈ l := by
  induction l with
  | nil => simp [lookupCell]
  | cons c l ih =>
    obtain ⟨hc, hl⟩ := List.pairwise_cons.mp hl
    rw [Memory.lookup_cons, List.mem_cons]
    by_cases ha : c.1 = a
    · have hnot : (a, b) ∉ l := fun hm => Nat.ne_of_lt (hc _ hm) ha
      simp [ha, hnot, Prod.ext_iff, eq_comm]
    · simp [ha, ih hl, Prod.ext_iff, Ne.symm ha]

/-- In canonical form the cells listed are the addresses of memory that read other than their reset contents, with
what they read. -/
theorem Memory.mem_cells_iff {m : Memory} (h : m.wf) {c : Host.Cell} :
    c ∈ m.cells ↔ c.1 < Config.memBytes ∧ m.read c.1 = c.2 ∧ c.2 ≠ m.resetByte c.1 := by
  obtain ⟨hrising, hcells⟩ := h
  rw [← lookupCell_eq_some_iff hrising]
  constructor
  · intro hl
    obtain ⟨ha, hb⟩ := hcells c ((lookupCell_eq_some_iff hrising).mp hl)
    exact ⟨ha, by rw [Memory.read, hl, Option.getD_some], hb⟩
  · rintro ⟨_, hread, hb⟩
    cases hl : lookupCell m.cells c.1 with
    | none =>
      rw [Memory.read, hl, Option.getD_none] at hread
      exact absurd hread.symm hb
    | some b =>
      rw [Memory.read, hl, Option.getD_some] at hread
      rw [hread]

/-- Lists of rising addresses with the same members are equal. -/
theorem cells_ext {l k : List Host.Cell} (hl : l.Pairwise (fun c d => c.1 < d.1))
    (hk : k.Pairwise (fun c d => c.1 < d.1)) (h : ∀ c, c ∈ l ↔ c ∈ k) : l = k := by
  have : Std.Irrefl (fun c d : Host.Cell => c.1 < d.1) := ⟨fun c => Nat.lt_irrefl c.1⟩
  have : Std.Antisymm (fun c d : Host.Cell => c.1 < d.1) := ⟨fun _ _ h h' => absurd h (Nat.lt_asymm h')⟩
  exact hl.eq_of_mem_iff hk h

theorem Memory.ext {m n : Memory} (hfont : m.font = n.font) (hcells : m.cells = n.cells) : m = n := by
  obtain ⟨font, cells⟩ := m
  obtain rfl : font = n.font := hfont
  obtain rfl : cells = n.cells := hcells
  rfl

theorem Memory.resetByte_congr {m n : Memory} (h : m.font = n.font) (a : Nat) : m.resetByte a = n.resetByte a := by
  rw [Memory.resetByte, Memory.resetByte, h]

/-- Settles O36: the cells of a canonical memory are those its reads and FONT determine, in rising order. -/
theorem memoryFormCanonical : Obligations.MemoryFormCanonical := by
  intro m n hfont hm hn hread
  have hmem : ∀ c, c ∈ m.cells ↔ c ∈ n.cells := fun c => by
    rw [Memory.mem_cells_iff hm, Memory.mem_cells_iff hn, Memory.resetByte_congr hfont]
    exact and_congr_right fun ha => by rw [hread c.1 ha]
  obtain ⟨hmrising, _⟩ := hm
  obtain ⟨hnrising, _⟩ := hn
  exact Memory.ext hfont (cells_ext hmrising hnrising hmem)

end Sys2Proof.Machine
end

section
/-!
SUPPORT. The decoder, the encoder and the rows of rule R75, each tied to the others.
-/

namespace Sys2Proof

/-! ### A word whose fixed nibbles are known is the word of its format (rules R71, R72) -/

section Rebuild

variable {w : Word} {f : BitVec 4}

theorem formatA_of_fields (hf : fieldFamily w = f) : formatA f (fieldNNN w) = w := by
  rw [← hf, formatA_fields]

theorem formatXI_of_fields (hf : fieldFamily w = f) : formatXI f (fieldX w) (fieldNN w) = w := by
  rw [← hf, formatXI_fields]

theorem formatXF_of_fields {nn : Byte} (h : fieldFamily w = f ∧ fieldNN w = nn) :
    formatXI f (fieldX w) nn = w := by
  obtain ⟨rfl, rfl⟩ := h
  exact formatXI_fields w

theorem formatXYN_of_fields (hf : fieldFamily w = f) : formatXY f (fieldX w) (fieldY w) (fieldN w) = w := by
  rw [← hf, formatXY_fields]

theorem formatXY_of_fields {n : BitVec 4} (h : fieldFamily w = f ∧ fieldN w = n) :
    formatXY f (fieldX w) (fieldY w) n = w := by
  obtain ⟨rfl, rfl⟩ := h
  exact formatXY_fields w

end Rebuild

/-! ### Decode after encode -/

/-- The family and the fixed low nibble or byte that `encode` writes lead the decoder back to the same constructor. -/
theorem decodeWord_encode (i : Instr) : decodeWord (encode i) = some i := by
  cases i with
  | cls | ret => rfl
  | jp | call | ldI | jpV0 => simp [encode, decodeWord]
  | seImm | sneImm | ldImm | addImm | rnd => simp [encode, decodeWord]
  | seReg | sneReg | drw => simp [encode, decodeWord]
  | ldReg | orReg | andReg | xorReg | addReg | sub | shr | subn | shl => simp [encode, decodeWord, decodeFamily8]
  | skp | sknp => simp [encode, decodeWord, decodeFamilyE]
  | ldVxDt | ldVxK | ldDtVx | ldStVx | addI | ldF | ldB | ldMemVx | ldVxMem =>
    simp [encode, decodeWord, decodeFamilyF]

theorem decode_encodeBytes (i : Instr) (rest : List Byte) : decode (encodeBytes i ++ rest) = .ok (i, rest) := by
  change decode (highByte (encode i) :: lowByte (encode i) :: rest) = _
  rw [decode_cons, decodeWord_encode]

/-- Settles O1, word by word and then on the two bytes of a word. -/
theorem decodeOfEncode : Obligations.DecodeOfEncode := fun i => ⟨decodeWord_encode i, decode_encodeBytes i⟩

/-! ### Encode after decode -/

/-- The sixteen values of a nibble: the families of rule R71, the function nibbles of family 8. -/
theorem nibble_cases : ∀ f : BitVec 4,
    f = 0x0#4 ∨ f = 0x1#4 ∨ f = 0x2#4 ∨ f = 0x3#4 ∨ f = 0x4#4 ∨ f = 0x5#4 ∨ f = 0x6#4 ∨ f = 0x7#4 ∨
    f = 0x8#4 ∨ f = 0x9#4 ∨ f = 0xA#4 ∨ f = 0xB#4 ∨ f = 0xC#4 ∨ f = 0xD#4 ∨ f = 0xE#4 ∨ f = 0xF#4 := by
  decide

section Encode

variable {w : Word} {i : Instr}

theorem encode_of_decodeFamily0 (h : decodeFamily0 w = some i) : encode i = w := by
  unfold decodeFamily0 at h
  split at h <;> cases h <;> rfl

theorem encode_of_decodeFamily8 (hf : fieldFamily w = 0x8) (h : decodeFamily8 w = some i) : encode i = w := by
  unfold decodeFamily8 at h
  split at h <;> cases h <;> exact formatXY_of_fields ⟨hf, ‹_›⟩

theorem encode_of_decodeFamilyE (hf : fieldFamily w = 0xE) (h : decodeFamilyE w = some i) : encode i = w := by
  unfold decodeFamilyE at h
  split at h <;> cases h <;> exact formatXF_of_fields ⟨hf, ‹_›⟩

theorem encode_of_decodeFamilyF (hf : fieldFamily w = 0xF) (h : decodeFamilyF w = some i) : encode i = w := by
  unfold decodeFamilyF at h
  split at h <;> cases h <;> exact formatXF_of_fields ⟨hf, ‹_›⟩

/-- Family by family, 0 to F: the format of the family (rule R72) puts the word together again from its fields. -/
theorem encode_of_decodeWord (h : decodeWord w = some i) : encode i = w := by
  rcases nibble_cases (fieldFamily w) with
    hf | hf | hf | hf | hf | hf | hf | hf | hf | hf | hf | hf | hf | hf | hf | hf <;>
    simp only [decodeWord, hf, Option.ite_none_right_eq_some, Option.some.injEq] at h
  · exact encode_of_decodeFamily0 h
  · subst h; exact formatA_of_fields hf
  · subst h; exact formatA_of_fields hf
  · subst h; exact formatXI_of_fields hf
  · subst h; exact formatXI_of_fields hf
  · obtain ⟨hn, rfl⟩ := h
    exact formatXY_of_fields ⟨hf, hn⟩
  · subst h; exact formatXI_of_fields hf
  · subst h; exact formatXI_of_fields hf
  · exact encode_of_decodeFamily8 hf h
  · obtain ⟨hn, rfl⟩ := h
    exact formatXY_of_fields ⟨hf, hn⟩
  · subst h; exact formatA_of_fields hf
  · subst h; exact formatA_of_fields hf
  · subst h; exact formatXI_of_fields hf
  · subst h; exact formatXYN_of_fields hf
  · exact encode_of_decodeFamilyE hf h
  · exact encode_of_decodeFamilyF hf h

/-- Settles O2: the decoder puts the fields of the word into the instruction, and the word is its fields. -/
theorem encodeOfDecode : Obligations.EncodeOfDecode := fun _ _ => encode_of_decodeWord

theorem decodeWord_eq_some_iff : decodeWord w = some i ↔ encode i = w :=
  ⟨encode_of_decodeWord, fun h => h ▸ decodeWord_encode i⟩

end Encode

/-! ### The rows of rule R75 -/

theorem row_selects_encode (i : Instr) : i.row.selects (encode i) = true := by
  open Laws.EncodeSelectsRow in
  cases i
  exacts [cls, ret, jp _, call _, seImm _ _, sneImm _ _, seReg _ _, ldImm _ _, addImm _ _, ldReg _ _, orReg _ _,
    andReg _ _, xorReg _ _, addReg _ _, sub _ _, shr _ _, subn _ _, shl _ _, sneReg _ _, ldI _, jpV0 _, rnd _ _,
    drw _ _ _, skp _, sknp _, ldVxDt _, ldVxK _, ldDtVx _, ldStVx _, addI _, ldF _, ldB _, ldMemVx _, ldVxMem _]

theorem row_mem_opcodeRows (i : Instr) : i.row ∈ opcodeRows := by
  cases i <;> simp [Instr.row, opcodeRows, opcodeRowsLow, opcodeRowsMid, opcodeRowsHigh]

/-! A selected word has the fixed nibbles of the row's pattern, one lemma per mask of rule R75. -/

section Selects

variable {w p : Word}

theorem selects_iff {m : Word} : OpcodeRow.selects ⟨p, m⟩ w = true ↔ w &&& m = p := beq_iff_eq

theorem eq_of_selects (h : OpcodeRow.selects ⟨p, 0xFFFF⟩ w = true) : w = p := by
  rw [selects_iff] at h
  rw [← h, show (0xFFFF : Word) = BitVec.allOnes 16 from rfl, BitVec.and_allOnes]

theorem family_of_selects_F000 (h : OpcodeRow.selects ⟨p, 0xF000⟩ w = true) : fieldFamily w = fieldFamily p := by
  have hw := formatA_mask (fieldFamily w) (fieldNNN w)
  rw [formatA_fields, selects_iff.mp h] at hw
  rw [hw]; exact (fieldFamily_formatA _ 0).symm

theorem fields_of_selects_F00F (h : OpcodeRow.selects ⟨p, 0xF00F⟩ w = true) :
    fieldFamily w = fieldFamily p ∧ fieldN w = fieldN p := by
  have hw := formatXY_mask (fieldFamily w) (fieldX w) (fieldY w) (fieldN w)
  rw [formatXY_fields, selects_iff.mp h] at hw
  rw [hw]; exact ⟨(fieldFamily_formatXY _ 0 0 _).symm, (fieldN_formatXY _ 0 0 _).symm⟩

theorem fields_of_selects_F0FF (h : OpcodeRow.selects ⟨p, 0xF0FF⟩ w = true) :
    fieldFamily w = fieldFamily p ∧ fieldNN w = fieldNN p := by
  have hw := formatXF_mask (fieldFamily w) (fieldX w) (fieldNN w)
  rw [formatXI_fields, selects_iff.mp h] at hw
  rw [hw]; exact ⟨(fieldFamily_formatXI _ 0 _).symm, (fieldNN_formatXI _ 0 _).symm⟩

end Selects

/-- A word that selects a row of the table is the word of an instruction of that row: the fixed nibbles are the
pattern's, the others are the operands. -/
theorem exists_encode_of_selects {w : Word} :
    ∀ r ∈ opcodeRows, r.selects w = true → ∃ i, encode i = w ∧ i.row = r := by
  simp only [opcodeRows, opcodeRowsLow, opcodeRowsMid, opcodeRowsHigh, List.forall_mem_append, List.forall_mem_cons,
    List.not_mem_nil, false_implies, implies_true, and_true, and_assoc]
  exact ⟨
    fun h => ⟨.cls, (eq_of_selects h).symm, rfl⟩,
    fun h => ⟨.ret, (eq_of_selects h).symm, rfl⟩,
    fun h => ⟨.jp _, formatA_of_fields (family_of_selects_F000 h), rfl⟩,
    fun h => ⟨.call _, formatA_of_fields (family_of_selects_F000 h), rfl⟩,
    fun h => ⟨.seImm _ _, formatXI_of_fields (family_of_selects_F000 h), rfl⟩,
    fun h => ⟨.sneImm _ _, formatXI_of_fields (family_of_selects_F000 h), rfl⟩,
    fun h => ⟨.seReg _ _, formatXY_of_fields (fields_of_selects_F00F h), rfl⟩,
    fun h => ⟨.ldImm _ _, formatXI_of_fields (family_of_selects_F000 h), rfl⟩,
    fun h => ⟨.addImm _ _, formatXI_of_fields (family_of_selects_F000 h), rfl⟩,
    fun h => ⟨.ldReg _ _, formatXY_of_fields (fields_of_selects_F00F h), rfl⟩,
    fun h => ⟨.orReg _ _, formatXY_of_fields (fields_of_selects_F00F h), rfl⟩,
    fun h => ⟨.andReg _ _, formatXY_of_fields (fields_of_selects_F00F h), rfl⟩,
    fun h => ⟨.xorReg _ _, formatXY_of_fields (fields_of_selects_F00F h), rfl⟩,
    fun h => ⟨.addReg _ _, formatXY_of_fields (fields_of_selects_F00F h), rfl⟩,
    fun h => ⟨.sub _ _, formatXY_of_fields (fields_of_selects_F00F h), rfl⟩,
    fun h => ⟨.shr _ _, formatXY_of_fields (fields_of_selects_F00F h), rfl⟩,
    fun h => ⟨.subn _ _, formatXY_of_fields (fields_of_selects_F00F h), rfl⟩,
    fun h => ⟨.shl _ _, formatXY_of_fields (fields_of_selects_F00F h), rfl⟩,
    fun h => ⟨.sneReg _ _, formatXY_of_fields (fields_of_selects_F00F h), rfl⟩,
    fun h => ⟨.ldI _, formatA_of_fields (family_of_selects_F000 h), rfl⟩,
    fun h => ⟨.jpV0 _, formatA_of_fields (family_of_selects_F000 h), rfl⟩,
    fun h => ⟨.rnd _ _, formatXI_of_fields (family_of_selects_F000 h), rfl⟩,
    fun h => ⟨.drw _ _ _, formatXYN_of_fields (family_of_selects_F000 h), rfl⟩,
    fun h => ⟨.skp _, formatXF_of_fields (fields_of_selects_F0FF h), rfl⟩,
    fun h => ⟨.sknp _, formatXF_of_fields (fields_of_selects_F0FF h), rfl⟩,
    fun h => ⟨.ldVxDt _, formatXF_of_fields (fields_of_selects_F0FF h), rfl⟩,
    fun h => ⟨.ldVxK _, formatXF_of_fields (fields_of_selects_F0FF h), rfl⟩,
    fun h => ⟨.ldDtVx _, formatXF_of_fields (fields_of_selects_F0FF h), rfl⟩,
    fun h => ⟨.ldStVx _, formatXF_of_fields (fields_of_selects_F0FF h), rfl⟩,
    fun h => ⟨.addI _, formatXF_of_fields (fields_of_selects_F0FF h), rfl⟩,
    fun h => ⟨.ldF _, formatXF_of_fields (fields_of_selects_F0FF h), rfl⟩,
    fun h => ⟨.ldB _, formatXF_of_fields (fields_of_selects_F0FF h), rfl⟩,
    fun h => ⟨.ldMemVx _, formatXF_of_fields (fields_of_selects_F0FF h), rfl⟩,
    fun h => ⟨.ldVxMem _, formatXF_of_fields (fields_of_selects_F0FF h), rfl⟩⟩

theorem exists_decodeWord_of_selects {w : Word} {r : OpcodeRow} (hr : r ∈ opcodeRows) (h : r.selects w = true) :
    ∃ i, decodeWord w = some i ∧ i.row = r := by
  obtain ⟨i, hi, hrow⟩ := exists_encode_of_selects r hr h
  exact ⟨i, decodeWord_eq_some_iff.mpr hi, hrow⟩

theorem row_selects_of_decodeWord {w : Word} {i : Instr} (h : decodeWord w = some i) : i.row.selects w = true :=
  encode_of_decodeWord h ▸ row_selects_encode i

/-- Settles O3: a selected word is an instruction's word, so it decodes; a decoded word is the word of its instruction,
which selects that instruction's row. -/
theorem decodesIffRowSelects : Obligations.DecodesIffRowSelects := by
  intro w
  refine ⟨?_, fun i h => ⟨row_mem_opcodeRows i, row_selects_of_decodeWord h⟩⟩
  rw [Bool.eq_iff_iff, Option.isSome_iff_exists, wordWellFormed, List.any_eq_true]
  constructor
  · rintro ⟨i, h⟩
    exact ⟨i.row, row_mem_opcodeRows i, row_selects_of_decodeWord h⟩
  · rintro ⟨r, hr, h⟩
    obtain ⟨i, hi, _⟩ := exists_decodeWord_of_selects hr h
    exact ⟨i, hi⟩

/-- Settles O4: both rows are the row of the one instruction the word decodes to. -/
theorem rowsDisjoint : Obligations.RowsDisjoint := by
  refine ⟨rfl, fun w r hr q hq hrw hqw => ?_⟩
  obtain ⟨i, hi, rfl⟩ := exists_decodeWord_of_selects hr hrw
  obtain ⟨j, hj, rfl⟩ := exists_decodeWord_of_selects hq hqw
  rw [Option.some.inj (hi.symm.trans hj)]

/-! ### The unrecognised words (rule R76) -/

section Unrecognised

variable (w : Word)

theorem toNat_fieldFamily : (fieldFamily w).toNat = w.toNat / 4096 := by
  have := w.isLt
  simp only [fieldFamily, BitVec.extractLsb'_toNat, Nat.shiftRight_eq_div_pow]
  omega

theorem toNat_fieldN : (fieldN w).toNat = w.toNat % 16 := by
  simp [fieldN, BitVec.extractLsb'_toNat]

theorem toNat_fieldNN : (fieldNN w).toNat = w.toNat % 256 := by
  simp [fieldNN, BitVec.extractLsb'_toNat]

theorem decodeFamily0_eq_none_iff : decodeFamily0 w = none ↔ w.toNat ≠ 0x00E0 ∧ w.toNat ≠ 0x00EE := by
  unfold decodeFamily0
  split <;> simp_all [BitVec.toNat_eq]

theorem decodeFamily8_eq_none_iff :
    decodeFamily8 w = none ↔ (fieldN w).toNat ∈ [0x8, 0x9, 0xA, 0xB, 0xC, 0xD, 0xF] := by
  rcases nibble_cases (fieldN w) with
    hn | hn | hn | hn | hn | hn | hn | hn | hn | hn | hn | hn | hn | hn | hn | hn <;>
    simp [decodeFamily8, hn]

theorem decodeFamilyE_eq_none_iff : decodeFamilyE w = none ↔ (fieldNN w).toNat ∉ [0x9E, 0xA1] := by
  unfold decodeFamilyE
  split <;> simp_all [BitVec.toNat_eq]

theorem decodeFamilyF_eq_none_iff : decodeFamilyF w = none ↔
    (fieldNN w).toNat ∉ [0x07, 0x0A, 0x15, 0x18, 0x1E, 0x29, 0x33, 0x55, 0x65] := by
  unfold decodeFamilyF
  split <;> simp_all [BitVec.toNat_eq]

end Unrecognised

/-- Settles O5, family by family: the other ten families leave no word out. -/
theorem unrecognisedWords : Obligations.UnrecognisedWords := by
  intro w
  simp only [← toNat_fieldFamily, ← toNat_fieldN, ← toNat_fieldNN]
  rcases nibble_cases (fieldFamily w) with
    hf | hf | hf | hf | hf | hf | hf | hf | hf | hf | hf | hf | hf | hf | hf | hf <;>
    simp [decodeWord, hf, decodeFamily0_eq_none_iff, decodeFamily8_eq_none_iff, decodeFamilyE_eq_none_iff,
      decodeFamilyF_eq_none_iff, BitVec.toNat_eq (x := fieldN w)]

/-! ### Words written out -/

/-- Settles O6: each recognised word is, by computation, the word of its instruction. -/
theorem sampleWordsDecode : Obligations.SampleWordsDecode :=
  ⟨decodeWord_encode .cls, decodeWord_encode .ret, decodeWord_encode (.jp 0xABC), decodeWord_encode (.seImm 0xC 0x7F),
    decodeWord_encode (.seReg 1 2), decodeWord_encode (.addReg 0xA 0xB), decodeWord_encode (.shl 0xA 0xB),
    decodeWord_encode (.drw 1 2 15), decodeWord_encode (.skp 1), decodeWord_encode (.ldVxMem 1), rfl⟩

end Sys2Proof
end

section
/-!
Control transfer (40_flow.md): 00EE, 1NNN, 2NNN and BNNN.
-/

namespace Sys2Proof.Machine

variable {s t : State}

/-! ### Past the last fetch (rules R53, R181) -/

theorem step_of_pc_past_end (h : s.pc.toNat + 1 > 0xFFF) : step s = .fault (.invalidAddress s.pc) := by
  simp only [step, State.fetch_eq_none.mpr h, State.raise_eq]

/-! ### The stack entries (rules R24, R25, decisions D6, D7) -/

/-- The one stack entry an instruction may write is the first free one. -/
theorem eq_sp_of_mem_stackSlots {i : Instr} {n : Nat} (h : n ∈ (writes i s).stackSlots) : n = s.sp.val := by
  cases i with
  | call => exact List.mem_singleton.mp h
  | _ => exact absurd h List.not_mem_nil

theorem exec_stack_of_ne_sp {i : Instr} {k : Fin 16} (hk : k.val ≠ s.sp.val) (h : exec i s = .next t) :
    t.stack[k] = s.stack[k] :=
  (frameOfEveryInstruction i s t h).stack fun hmem => hk (eq_sp_of_mem_stackSlots hmem)

theorem State.top_congr (hstack : t.stack = s.stack) (hsp : t.sp = s.sp) : t.top = s.top := by
  simp only [State.top, hstack, hsp]

theorem State.pop_sp_congr (hsp : t.sp = s.sp) : t.pop.sp = s.pop.sp := by
  simp only [State.pop_sp, hsp]

theorem State.pop_sp_add_one (h : s.sp ≠ 0) : s.pop.sp.val + 1 = s.sp.val :=
  Nat.sub_add_cancel (Fin.pos_iff_ne_zero.mpr h)

/-- The entry a pop reads is the one at sp after it. -/
theorem State.stack_getElem?_pop_sp (s : State) : s.stack[s.pop.sp.val]? = some s.top :=
  Vector.getElem?_eq_getElem _

/-! ### Calls and returns -/

/-- Settles O11: the first case of 00EE is the fault, the second the pop; a live entry is not the one at sp. -/
theorem returnPops : Obligations.ReturnPops := by
  refine ⟨rfl, fun s hsp => ?_, fun s hsp => ?_, fun i s t k hk h => exec_stack_of_ne_sp (Nat.ne_of_lt hk) h⟩
  · exact (exec_ret_cases s).elim And.right fun h => absurd hsp h.1
  · exact ⟨_, exec_ret_of_ne hsp, State.pop_sp_add_one hsp, s.stack_getElem?_pop_sp, rfl, fun _ => rfl,
      step_of_pc_past_end⟩

/-- Settles O15: the entry at sp is the one pushed, and no instruction writes another. -/
theorem callPushes : Obligations.CallPushes := by
  intro nnn s hsp
  have hcall := exec_call_of_lt nnn (sp_lt_of_ne hsp)
  have hpushed : (s.stack.set s.sp.val (s.pc + 2) (sp_lt_of_ne hsp))[s.sp.val]? = some (s.pc + 2) :=
    Vector.getElem?_set_self _
  exact ⟨_, hcall, hpushed, fun k hk => exec_stack_of_ne_sp hk hcall, rfl, addrOf_toNat nnn, fun _ => rfl⟩

/-- Settles O16: the return reads and moves what `push` left, whatever else the called code changed. -/
theorem callThenReturn : Obligations.CallThenReturn := by
  intro nnn s hsp
  have hlt := sp_lt_of_ne hsp
  refine ⟨_, exec_call_of_lt nnn hlt, fun u hstack husp => ?_⟩
  have hne : u.sp ≠ 0 := by
    rw [husp]
    exact Fin.succ_ne_zero ⟨s.sp.val, hlt⟩
  have htop : u.top = s.pc + 2 := (State.top_congr hstack husp).trans (s.top_push (s.pc + 2) hlt)
  have hpop : u.pop.sp = s.sp := (State.pop_sp_congr husp).trans (s.pop_push_sp (s.pc + 2) hlt)
  exact ⟨_, exec_ret_of_ne hne, htop, hpop⟩

/-! ### Jumps -/

/-- The largest sum, 0xFFF + 0xFF, does not wrap (rule R103, decision D4). -/
theorem addrOf_add_toNat (nnn : BitVec 12) (b : Byte) :
    (addrOf nnn + b.setWidth 16).toNat = nnn.toNat + b.toNat := by
  have hnnn := nnn.isLt
  have hb := b.isLt
  rw [BitVec.toNat_add, addrOf_toNat, BitVec.toNat_setWidth]
  omega

/-- Settles O14: the state 1NNN answers is written out, and a jump to pc0 writes the pc that stands there. -/
theorem jumpSetsPc : Obligations.JumpSetsPc := by
  intro nnn s
  refine ⟨selects_iff.mp (row_selects_encode (.jp nnn)), _, exec_jp_eq nnn, addrOf_toNat nnn, fun _ => rfl, rfl, rfl,
    rfl, fun hend => ?_, fun hself => ?_⟩
  · subst hend
    exact step_of_pc_past_end (by decide : (addrOf 0xFFF).toNat + 1 > 0xFFF)
  · have hpc : addrOf nnn = s.pc := BitVec.eq_of_toNat_eq ((addrOf_toNat nnn).trans hself.symm)
    rw [hpc]

/-- Settles O17: the sum is pc itself, so a sum of 0xFFF or more is past the last fetch. -/
theorem jumpV0SetsPc : Obligations.JumpV0SetsPc := by
  intro nnn s
  have hpc := addrOf_add_toNat nnn (s.reg 0)
  refine ⟨_, exec_jpV0_eq nnn, hpc, fun _ => rfl, rfl, rfl, fun hsum => step_of_pc_past_end ?_⟩
  rw [hpc]
  omega

end Sys2Proof.Machine
end

section
/-!
Conditional skips on registers (41_skip.md): 3XNN, 4XNN, 5XY0 and 9XY0.
-/

namespace Sys2Proof.Machine

/-- A skip on a difference (4XNN, 9XY0) is the skip on equality with its two targets exchanged. -/
theorem ite_bne_eq_ite_eq (a b : Byte) (skipped next : Word) :
    (if (a != b) = true then skipped else next) = if a = b then next else skipped := by
  simp only [bne_iff_ne, ite_not]

/-- Settles O18: both end states are written out; their tests are read as V[X] = NN. -/
theorem skipsOnImmediate : Obligations.SkipsOnImmediate := by
  intro x nn s
  refine ⟨selects_iff.mp (row_selects_encode (.seImm x nn)), selects_iff.mp (row_selects_encode (.sneImm x nn)),
    _, _, exec_seImm_eq x nn, exec_sneImm_eq x nn, ?_, ite_bne_eq_ite_eq _ _ _ _, fun _ => ⟨rfl, rfl⟩⟩
  simp only [beq_iff_eq]

/-- Settles O19: the end states as for 3XNN and 4XNN, the case X = Y from them; the words are R76's families 5 and 9. -/
theorem skipsOnRegisters : Obligations.SkipsOnRegisters := by
  refine ⟨fun x y s => ?_, fun w hfamily hlow => (unrecognisedWords w).mpr ?_⟩
  · refine ⟨selects_iff.mp (row_selects_encode (.seReg x y)), selects_iff.mp (row_selects_encode (.sneReg x y)),
      _, _, exec_seReg_eq x y, exec_sneReg_eq x y, ?_, ite_bne_eq_ite_eq _ _ _ _, fun hxy => ?_, fun _ => ⟨rfl, rfl⟩⟩
    · simp only [beq_iff_eq]
    · subst hxy
      simp
  · obtain h5 | h9 := hfamily
    · exact .inr (.inl ⟨h5, hlow⟩)
    · exact .inr (.inr (.inr (.inl ⟨h9, hlow⟩)))

end Sys2Proof.Machine
end

section
/-!
SUPPORT. The end of an arithmetic instruction register by register (rule R131), and the bytes the family computes
and flags with, as numbers (rules R126 to R130).
-/

namespace Sys2Proof.Machine

section Registers

variable (s : State)

/-- A register that receives its own value leaves the state as it was (rule R122, X = Y). -/
theorem State.setReg_reg_self (x : Reg) : s.setReg x (s.reg x) = s := by
  have hv : s.v.set x (s.reg x) = s.v := Vector.set_getElem_self x.isLt
  rw [State.setReg, hv]

@[simp] theorem State.reg_setFlag_flagReg (f : Byte) : (s.setFlag f).reg flagReg = f :=
  State.reg_setReg_self s flagReg f

/-- Where VF is not the destination, the flag leaves the result in V[X]. -/
theorem State.reg_result_of_ne_flagReg {x : Reg} (hx : x ≠ flagReg) (b f : Byte) :
    ((s.setReg x b).setFlag f).reg x = b := by
  rw [State.reg_setReg_setFlag, if_neg hx, if_pos rfl]

/-- An arithmetic instruction with a flag writes V[X] and VF alone. -/
theorem State.reg_result_of_ne {x r : Reg} (hx : r ≠ x) (hflag : r ≠ flagReg) (b f : Byte) :
    ((s.setReg x b).setFlag f).reg r = s.reg r := by
  rw [State.reg_setReg_setFlag, if_neg hflag, if_neg hx]

end Registers

variable (a b : Byte)

theorem carryFlag_eq_ite : carryFlag a b = if a.toNat + b.toNat > 255 then 1 else 0 := by
  simp only [carryFlag, flagByte, decide_eq_true_eq]

theorem notBorrowFlag_eq_ite : notBorrowFlag a b = if a.toNat < b.toNat then 0 else 1 := by
  simp only [notBorrowFlag, flagByte, Bool.not_eq_true', decide_eq_false_iff_not, ite_not]

theorem lowBitFlag_toNat : (lowBitFlag a).toNat = a.toNat % 2 := Nat.and_one_is_mod a.toNat

/-- Bit 7 is the top bit of a byte, so the shift alone leaves it. -/
theorem highBitFlag_toNat : (highBitFlag a).toNat = a.toNat / 128 := by
  have hlt := a.isLt
  have hbit : (highBitFlag a).toNat = a.toNat >>> 7 % 2 := Nat.and_one_is_mod _
  rw [hbit, Nat.shiftRight_eq_div_pow]
  omega

/-- The byte difference is the mathematical remainder of the difference of the numbers (rules R127, R129). -/
theorem toNat_sub_eq_emod : ((a - b).toNat : Int) = ((a.toNat : Int) - b.toNat) % 256 := by
  have ha := a.isLt
  have hb := b.isLt
  rw [BitVec.toNat_sub]
  omega

end Sys2Proof.Machine
end

section
/-!
Register load, arithmetic, logic and shifts (42_alu.md): 6XNN, 7XNN and family 8.
-/

namespace Sys2Proof.Machine

/-- Settles O21: the end state is one register write of NN. -/
theorem loadImmediate : Obligations.LoadImmediate := by
  intro x nn s
  exact ⟨selects_iff.mp (row_selects_encode (.ldImm x nn)), _, exec_ldImm_eq x nn, s.reg_setReg_self x nn,
    fun _ hr => s.reg_setReg_of_ne nn hr, rfl⟩

/-- Settles O22: the end state is one register write of the byte sum, which is the sum modulo 256. -/
theorem addImmediate : Obligations.AddImmediate := by
  intro x nn s
  refine ⟨selects_iff.mp (row_selects_encode (.addImm x nn)), _, exec_addImm_eq x nn, ?_,
    fun _ hr => s.reg_setReg_of_ne _ hr, rfl⟩
  rw [State.reg_end, State.reg_setReg_self, BitVec.toNat_add]

/-- Settles O23: the end state is one register write of V[Y]; with X = Y it writes what stands there. -/
theorem copyRegister : Obligations.CopyRegister := by
  intro x y s
  refine ⟨selects_iff.mp (row_selects_encode (.ldReg x y)), _, exec_ldReg_eq x y, s.reg_setReg_self x _,
    fun _ hr => s.reg_setReg_of_ne _ hr, rfl, fun hxy => ?_⟩
  rw [← hxy, State.setReg_reg_self]

/-- Settles O24: each end state is one register write of the bitwise operation, which is read bit by bit. -/
theorem logicOperations : Obligations.LogicOperations := by
  intro x y s
  refine ⟨_, _, _, exec_orReg_eq x y, exec_andReg_eq x y, exec_xorReg_eq x y, fun k _ => ?_,
    fun r hr => ⟨s.reg_setReg_of_ne _ hr, s.reg_setReg_of_ne _ hr, s.reg_setReg_of_ne _ hr⟩, rfl, rfl, rfl⟩
  simp only [State.reg_end, State.reg_setReg_self]
  exact ⟨BitVec.getLsbD_or, BitVec.getLsbD_and, BitVec.getLsbD_xor⟩

/-- Settles O25: the sum goes to V[X], then the carry of the old values to VF. -/
theorem addRegisters : Obligations.AddRegisters := by
  intro x y s
  refine ⟨_, exec_addReg_eq x y, fun hx => ?_, ?_, fun r hr hflag => s.reg_result_of_ne hr hflag _ _, rfl⟩
  · rw [State.reg_end, State.reg_result_of_ne_flagReg s hx, BitVec.toNat_add]
  · rw [State.reg_end, State.reg_setFlag_flagReg, carryFlag_eq_ite]

/-- Settles O26: each difference goes to V[X], then its not-borrow of the old values to VF. -/
theorem subtractRegisters : Obligations.SubtractRegisters := by
  intro x y s
  refine ⟨_, _, exec_sub_eq x y, exec_subn_eq x y, fun hx => ?_, fun hx => ?_, ?_, ?_,
    fun r hr hflag => ⟨s.reg_result_of_ne hr hflag _ _, s.reg_result_of_ne hr hflag _ _⟩, rfl, rfl⟩
  · rw [State.reg_end, State.reg_result_of_ne_flagReg s hx, toNat_sub_eq_emod]
  · rw [State.reg_end, State.reg_result_of_ne_flagReg s hx, toNat_sub_eq_emod]
  · rw [State.reg_end, State.reg_setFlag_flagReg, notBorrowFlag_eq_ite]
  · rw [State.reg_end, State.reg_setFlag_flagReg, notBorrowFlag_eq_ite]

/-- Settles O27: no end state names Y; each shift goes to V[X], then the bit it loses from the old V[X] to VF. -/
theorem shiftRegister : Obligations.ShiftRegister := by
  intro x y s
  refine ⟨fun z => ⟨(exec_shr_eq x z).trans (exec_shr_eq x y).symm, (exec_shl_eq x z).trans (exec_shl_eq x y).symm⟩,
    _, _, exec_shr_eq x y, exec_shl_eq x y, fun hx => ?_, fun hx => ?_, ?_, ?_,
    fun r hr hflag => ⟨s.reg_result_of_ne hr hflag _ _, s.reg_result_of_ne hr hflag _ _⟩, rfl, rfl⟩
  · rw [State.reg_end, State.reg_result_of_ne_flagReg s hx, BitVec.toNat_ushiftRight, Nat.shiftRight_eq_div_pow,
      pow_one]
  · rw [State.reg_end, State.reg_result_of_ne_flagReg s hx, BitVec.toNat_shiftLeft, Nat.shiftLeft_eq, pow_one]
  · rw [State.reg_end, State.reg_setFlag_flagReg, lowBitFlag_toNat]
  · rw [State.reg_end, State.reg_setFlag_flagReg, highBitFlag_toNat]

end Sys2Proof.Machine
end

section
/-!
SUPPORT. The index register, block stores and block loads (rules R54, R141 to R145), as numbers and byte by byte.
-/

namespace Sys2Proof.Machine

/-! ### The index register -/

theorem indexFlag_eq_ite (i : Word) (b : Byte) :
    indexFlag i b = if i.toNat + b.toNat > 0xFFF then 1 else 0 := by
  simp only [indexFlag, flagByte, decide_eq_true_eq]

/-- A data address fits the index register (rule R22), so I holds it as it is. -/
theorem ofNat_ea_toNat (i : Word) (k : Nat) : (BitVec.ofNat 16 (ea i k)).toNat = (i.toNat + k) % 4096 :=
  Nat.mod_eq_of_lt (Nat.lt_trans (Memory.ea_lt i k) (by decide))

/-! ### Stores -/

theorem Frame.read {w : Writes} {s t : State} (h : Frame w s t) {a : Nat} (ha : a ∉ w.addrs) :
    t.mem.read a = s.mem.read a := by
  obtain ⟨_, _, _, _, _, _, _, _, hmem, _⟩ := h
  exact hmem a ha

/-- FX33 puts the k-th decimal digit at ea(k) (rule R143). -/
theorem Memory.read_writeBlock_bcdDigits (m : Memory) (i : Word) (b : Byte) (k : Fin 3) :
    (m.writeBlock i 0 (bcdDigits b)).read (ea i k.val) = (bcdDigits b)[k] := by
  have hfits : 0 + (bcdDigits b).length ≤ Config.memBytes := (by decide : 3 ≤ Config.memBytes)
  have hread := m.read_writeBlock_inside i 0 (bcdDigits b) k.val k.isLt hfits
  rwa [Nat.zero_add] at hread

/-! ### Loads -/

theorem State.reg_loadRegs_of_le (s : State) {x k : Reg} (hk : k ≤ x) :
    (s.loadRegs x).reg k = s.mem.read (ea s.i k.val) := by
  rw [State.reg_loadRegs, if_pos hk]

theorem State.reg_loadRegs_of_lt (s : State) {x k : Reg} (hk : x < k) : (s.loadRegs x).reg k = s.reg k := by
  rw [State.reg_loadRegs, if_neg (not_le.mpr hk)]

end Sys2Proof.Machine
end

section
/-!
The index register and memory transfer (43_index_memory.md): ANNN, FX1E, FX29, FX33, FX55 and FX65.
-/

namespace Sys2Proof.Machine

/-- Settles O31: each digit, which fits a byte, is read back at its masked address, and the frame of FX33 leaves every
other byte. -/
theorem storeDecimal : Obligations.StoreDecimal := by
  intro x s
  have hexec := exec_ldB_eq (s := s) x
  have hdigit := s.mem.read_writeBlock_bcdDigits s.i (s.reg x)
  have hlt := (s.reg x).isLt
  refine ⟨_, hexec, (congrArg BitVec.toNat (hdigit 0)).trans (Nat.mod_eq_of_lt ?_),
    (congrArg BitVec.toNat (hdigit 1)).trans (Nat.mod_eq_of_lt ?_),
    (congrArg BitVec.toNat (hdigit 2)).trans (Nat.mod_eq_of_lt ?_),
    fun _ ha => (frameOfEveryInstruction _ s _ hexec).read ha, rfl, fun _ => rfl, rfl⟩ <;> omega

/-- Settles O32: each register is read back at its masked address, and the frame of FX55 leaves every other byte. -/
theorem storeRegisters : Obligations.StoreRegisters := by
  intro x s
  have hexec := exec_ldMemVx_eq (s := s) x
  exact ⟨_, hexec, fun _ hk => State.read_writeBlock_regBlock hk,
    fun _ ha => (frameOfEveryInstruction _ s _ hexec).read ha, rfl, fun _ => rfl, rfl⟩

/-- Settles O34: the load reads at the addresses the store has written, since both keep I. -/
theorem storeLoadRoundTrip : Obligations.StoreLoadRoundTrip := by
  intro x s fresh
  refine ⟨_, _, exec_ldMemVx_eq x, exec_ldVxMem_eq x, fun k hk => ?_, fun k hk => ?_, ?_⟩
  · rw [State.reg_end, State.reg_loadRegs_of_le _ hk]
    exact State.read_writeBlock_regBlock hk
  · rw [State.reg_end, State.reg_loadRegs_of_lt _ hk]
    rfl
  · simp only [State.loadRegs_i, State.setMem_i]

/-- Settles O28: the 12 bits of NNN are the number I receives. -/
theorem loadIndex : Obligations.LoadIndex := by
  intro nnn s
  exact ⟨selects_iff.mp (row_selects_encode (.ldI nnn)), _, exec_ldI_eq nnn, addrOf_toNat nnn, addrOf_le nnn,
    fun _ => rfl, rfl⟩

/-- Settles O29: I receives the masked sum, then VF the overflow of the old values. -/
theorem addToIndex : Obligations.AddToIndex := by
  intro x s
  refine ⟨_, exec_addI_eq x, ofNat_ea_toNat s.i _, ?_, fun r hr => ?_, rfl⟩
  · rw [State.reg_end, State.reg_setFlag_flagReg, indexFlag_eq_ite]
  · rw [State.reg_end, State.setFlag, State.reg_setReg_of_ne _ _ hr, State.reg_setI]

/-- Settles O30: 5 times the largest byte, 0x4FB, does not wrap. -/
theorem glyphIndex : Obligations.GlyphIndex := by
  intro x s
  have hglyph := glyphAddr_toNat (s.reg x)
  have hlt := (s.reg x).isLt
  refine ⟨_, exec_ldF_eq x, hglyph, ?_, fun _ => rfl, rfl, rfl⟩
  rw [State.setI_i, hglyph]
  omega

/-- Settles O33: `loadRegs` reads V[0] to V[X] at their masked addresses and keeps the registers above. -/
theorem loadRegisters : Obligations.LoadRegisters := by
  intro x s
  refine ⟨_, exec_ldVxMem_eq x, fun k hk => ?_, fun k hk => ?_, ?_, ?_, rfl⟩
  · rw [State.reg_end, State.reg_loadRegs_of_le s hk, ea]
  · rw [State.reg_end, State.reg_loadRegs_of_lt s hk]
  · simp only [State.loadRegs_i]
  · simp only [State.loadRegs_mem]

end Sys2Proof.Machine
end

section
/-!
SUPPORT. DXYN's two loops as plotting one list of distinct points, and what that does to each pixel and to the
collision (rules R151, R152).
-/

namespace Sys2Proof.Machine

/-! ### Plotting a list of points -/

/-- Plot points one after another. -/
def Canvas.plotAll (c : Canvas) (ps : List (Fin 64 × Fin 32)) : Canvas :=
  ps.foldl (fun acc p => Canvas.plot acc p.1 p.2) c

theorem Canvas.plotAll_cons (c : Canvas) (p : Fin 64 × Fin 32) (ps : List (Fin 64 × Fin 32)) :
    Canvas.plotAll c (p :: ps) = Canvas.plotAll (Canvas.plot c p.1 p.2) ps := rfl

theorem Canvas.pixel_plot_self (c : Canvas) (x : Fin 64) (y : Fin 32) :
    Framebuffer.pixel (Canvas.plot c x y).1 x y = !Framebuffer.pixel c.1 x y := by
  rw [Canvas.pixel_plot, beq_self_eq_true, beq_self_eq_true, Bool.and_true, Bool.xor_true]

theorem Canvas.pixel_plot_of_ne (c : Canvas) {p q : Fin 64 × Fin 32} (h : q ≠ p) :
    Framebuffer.pixel (Canvas.plot c p.1 p.2).1 q.1 q.2 = Framebuffer.pixel c.1 q.1 q.2 := by
  have hoff : (p.1 == q.1 && p.2 == q.2) = false := by
    rw [Bool.and_eq_false_imp, beq_iff_eq, beq_eq_false_iff_ne]
    exact fun h1 h2 => h (Prod.ext h1.symm h2.symm)
  rw [Canvas.pixel_plot, hoff, Bool.xor_false]

/-- Points outside the list keep their pixel. -/
theorem Canvas.pixel_plotAll_of_notMem {c : Canvas} {ps : List (Fin 64 × Fin 32)} {q : Fin 64 × Fin 32}
    (hq : q ∉ ps) : Framebuffer.pixel (Canvas.plotAll c ps).1 q.1 q.2 = Framebuffer.pixel c.1 q.1 q.2 := by
  induction ps generalizing c with
  | nil => rfl
  | cons p ps ih =>
    obtain ⟨hne, hrest⟩ := not_or.mp (mt List.mem_cons.mpr hq)
    rw [Canvas.plotAll_cons, ih hrest, Canvas.pixel_plot_of_ne c hne]

/-- A point listed once has its pixel inverted. -/
theorem Canvas.pixel_plotAll_of_mem {c : Canvas} {ps : List (Fin 64 × Fin 32)} (hnd : ps.Nodup)
    {q : Fin 64 × Fin 32} (hq : q ∈ ps) :
    Framebuffer.pixel (Canvas.plotAll c ps).1 q.1 q.2 = !Framebuffer.pixel c.1 q.1 q.2 := by
  induction ps generalizing c with
  | nil => cases hq
  | cons p ps ih =>
    obtain ⟨hp, hnd⟩ := List.nodup_cons.mp hnd
    rw [Canvas.plotAll_cons]
    obtain rfl | hrest := List.mem_cons.mp hq
    · rw [Canvas.pixel_plotAll_of_notMem hp, Canvas.pixel_plot_self]
    · rw [ih hnd hrest, Canvas.pixel_plot_of_ne c (ne_of_mem_of_not_mem hrest hp)]

/-- Distinct points collide with the pixels that were 1 before the first of them was plotted. -/
theorem Canvas.collided_plotAll {c : Canvas} {ps : List (Fin 64 × Fin 32)} (hnd : ps.Nodup) :
    (Canvas.plotAll c ps).2 = true ↔ c.2 = true ∨ ∃ q ∈ ps, Framebuffer.pixel c.1 q.1 q.2 = true := by
  induction ps generalizing c with
  | nil => simp [Canvas.plotAll]
  | cons p ps ih =>
    obtain ⟨hp, hnd⟩ := List.nodup_cons.mp hnd
    have hlater : (∃ q ∈ ps, Framebuffer.pixel (Canvas.plot c p.1 p.2).1 q.1 q.2 = true) ↔
        ∃ q ∈ ps, Framebuffer.pixel c.1 q.1 q.2 = true :=
      exists_congr fun q => and_congr_right fun hq => by
        rw [Canvas.pixel_plot_of_ne c (ne_of_mem_of_not_mem hq hp)]
    rw [Canvas.plotAll_cons, ih hnd, hlater, Canvas.collided_plot, Bool.or_eq_true, List.exists_mem_cons_iff, or_assoc]

/-! ### The points of a sprite -/

/-- The points under the 1 bits of one sprite byte, left to right. -/
def rowPoints (x0 : Nat) (y : Fin 32) (b : Byte) : List (Fin 64 × Fin 32) :=
  ((List.range 8).filter (spriteBit b)).map fun k => (wrapColumn (x0 + k), y)

/-- The points under the 1 bits of the `n` rows at I, in the order DXYN plots them. -/
def spritePoints (m : Memory) (i : Word) (n x0 y0 : Nat) : List (Fin 64 × Fin 32) :=
  (List.range n).flatMap fun r => rowPoints x0 (wrapRow (y0 + r)) (m.read (ea i r))

theorem Canvas.drawByte_eq_plotAll (c : Canvas) (x0 : Nat) (y : Fin 32) (b : Byte) :
    Canvas.drawByte c x0 y b = Canvas.plotAll c (rowPoints x0 y b) := by
  rw [Canvas.plotAll, rowPoints, List.foldl_map, List.foldl_filter, Canvas.drawByte]

theorem drawSprite_eq_plotAll (m : Memory) (i : Word) (n x0 y0 : Nat) (fb : Framebuffer) :
    drawSprite m i n x0 y0 fb = Canvas.plotAll (fb, false) (spritePoints m i n x0 y0) := by
  simp only [Canvas.plotAll, spritePoints, List.foldl_flatMap, drawSprite, Canvas.drawByte_eq_plotAll]

theorem nodup_rowPoints (x0 : Nat) (y : Fin 32) (b : Byte) : (rowPoints x0 y b).Nodup := by
  refine List.Nodup.map_on (fun j hj k hk h => ?_) (List.nodup_range.filter _)
  have hj8 := List.mem_range.mp (List.mem_of_mem_filter hj)
  have hk8 := List.mem_range.mp (List.mem_of_mem_filter hk)
  exact wrapColumn_injective (by omega) (by omega) (congrArg Prod.fst h)

theorem snd_eq_of_mem_rowPoints {x0 : Nat} {y : Fin 32} {b : Byte} {q : Fin 64 × Fin 32}
    (h : q ∈ rowPoints x0 y b) : q.2 = y := by
  obtain ⟨k, _, rfl⟩ := List.mem_map.mp h
  rfl

/-- DXYN plots no point twice: the columns of a row are distinct, and so are its at most 32 rows. -/
theorem nodup_spritePoints (m : Memory) (i : Word) {n : Nat} (x0 y0 : Nat) (hn : n ≤ 32) :
    (spritePoints m i n x0 y0).Nodup := by
  refine List.nodup_flatMap.mpr ⟨fun r _ => nodup_rowPoints _ _ _, ?_⟩
  refine List.nodup_range.pairwise_of_forall_ne fun r hr r' hr' hne q hq hq' => hne ?_
  have hr32 := List.mem_range.mp hr
  have hr32' := List.mem_range.mp hr'
  exact wrapRow_injective (by omega) (by omega)
    ((snd_eq_of_mem_rowPoints hq).symm.trans (snd_eq_of_mem_rowPoints hq'))

theorem mem_rowPoints {x0 : Nat} {y y' : Fin 32} {b : Byte} {x : Fin 64} :
    (x, y') ∈ rowPoints x0 y b ↔ ∃ c < 8, b.getLsbD (7 - c) = true ∧ x.val = (x0 + c) % 64 ∧ y' = y := by
  simp only [rowPoints, List.mem_map, List.mem_filter, List.mem_range, spriteBit, wrapColumn, Prod.mk.injEq,
    Fin.ext_iff, and_assoc, eq_comm]

/-- The points DXYN plots are the pixels the rules' arithmetic names. -/
theorem mem_spritePoints {m : Memory} {i : Word} {n x0 y0 : Nat} {x : Fin 64} {y : Fin 32} :
    (x, y) ∈ spritePoints m i n x0 y0 ↔ spriteCovers m i n x0 y0 x y := by
  simp only [spritePoints, List.mem_flatMap, List.mem_range, mem_rowPoints, ← exists_and_left, spriteCovers, ea,
    Config.memBytes, wrapRow, Fin.ext_iff]

/-! ### A sprite on the framebuffer -/

section Sprite

variable {m : Memory} {i : Word} {n x0 y0 : Nat} {fb : Framebuffer}

/-- A sprite of at most 32 rows inverts exactly the pixels it covers (rule R151). -/
theorem pixel_drawSprite (hn : n ≤ 32) (x : Fin 64) (y : Fin 32) :
    Framebuffer.pixel (drawSprite m i n x0 y0 fb).1 x y = true ↔
      ¬ (Framebuffer.pixel fb x y = true ↔ spriteCovers m i n x0 y0 x y) := by
  rw [drawSprite_eq_plotAll, ← mem_spritePoints]
  by_cases hq : (x, y) ∈ spritePoints m i n x0 y0
  · have hpix := Canvas.pixel_plotAll_of_mem (c := (fb, false)) (nodup_spritePoints m i x0 y0 hn) hq
    simp [hpix, hq]
  · have hpix := Canvas.pixel_plotAll_of_notMem (c := (fb, false)) hq
    simp [hpix, hq]

/-- The collision is a covered pixel that was 1 (rule R151). -/
theorem collided_drawSprite (hn : n ≤ 32) :
    (drawSprite m i n x0 y0 fb).2 = true ↔
      ∃ x y, Framebuffer.pixel fb x y = true ∧ spriteCovers m i n x0 y0 x y := by
  rw [drawSprite_eq_plotAll, Canvas.collided_plotAll (nodup_spritePoints m i x0 y0 hn)]
  simp only [Bool.false_eq_true, false_or, Prod.exists, mem_spritePoints, and_comm]

end Sprite

end Sys2Proof.Machine
end

section
/-!
The display (44_display.md): 00E0 and DXYN.
-/

namespace Sys2Proof.Machine

variable {s t : State}

/-! ### Drawing -/

/-- Settles O38: the loops invert each covered pixel once, and the flag is written to VF alone. (The plain name is the
model's function.) -/
theorem drawSprite_holds : Obligations.DrawSprite := by
  intro x y n s
  have hn : n.toNat ≤ 32 := by
    have hlt := n.isLt
    omega
  have hcollided := collided_drawSprite (m := s.mem) (i := s.i) (x0 := (s.reg x).toNat % 64)
    (y0 := (s.reg y).toNat % 32) (fb := s.fb) hn
  refine ⟨_, exec_drw_eq x y n, pixel_drawSprite hn, fun hhit => ?_, fun hmiss => ?_,
    fun r hr => State.reg_setReg_of_ne _ _ hr, rfl, rfl, rfl⟩
  · rw [State.reg_end, State.reg_setFlag_flagReg, flagByte, if_pos (hcollided.mpr hhit)]
  · rw [State.reg_end, State.reg_setFlag_flagReg, flagByte, if_neg fun hc => hmiss (hcollided.mp hc)]

/-- Settles O39: the first draw keeps I, memory and both coordinates, so the second inverts the same pixels. -/
theorem drawTwiceRestores : Obligations.DrawTwiceRestores := by
  intro x y n s hx hy
  obtain ⟨t, ht, htpix, _, _, hreg, hi, hmem, _⟩ := drawSprite_holds x y n s
  obtain ⟨u, hu, hupix, hhit, _⟩ := drawSprite_holds x y n t
  rw [hreg x hx, hreg y hy, hi, hmem] at hupix hhit
  refine ⟨t, u, ht, hu, fun px py => ?_, fun ⟨px, py, hoff, hon⟩ => hhit ⟨px, py, hon, ?_⟩⟩
  · rw [Bool.eq_iff_iff, hupix, htpix]
    tauto
  · have hflip := (htpix px py).mp hon
    simpa [hoff] using hflip

/-! ### What leaves the pixels alone -/

theorem Frame.pixel {w : Writes} (h : Frame w s t) (hw : w.fb = false) (x : Fin 64) (y : Fin 32) :
    t.pixel x y = s.pixel x y := by
  obtain ⟨_, _, _, _, _, _, hfb, _⟩ := h
  exact hfb hw x y

/-- Only the rows of 00E0 and DXYN name the framebuffer. -/
theorem writes_fb_eq_false {i : Instr} (hcls : i ≠ .cls) (hdrw : ∀ x y n, i ≠ .drw x y n) :
    (writes i s).fb = false := by
  cases i with
  | cls => exact absurd rfl hcls
  | drw x y n => exact absurd rfl (hdrw x y n)
  | _ => rfl

theorem exec_pixel {i : Instr} (hcls : i ≠ .cls) (hdrw : ∀ x y n, i ≠ .drw x y n) (h : exec i s = .next t)
    (x : Fin 64) (y : Fin 32) : t.pixel x y = s.pixel x y :=
  (frameOfEveryInstruction i s t h).pixel (writes_fb_eq_false hcls hdrw) x y

theorem step_pixel (hcls : s.nextInstr ≠ some .cls) (hdrw : ∀ x y n, s.nextInstr ≠ some (.drw x y n))
    (h : step s = .next t) (x : Fin 64) (y : Fin 32) : t.pixel x y = s.pixel x y := by
  obtain ⟨_, he⟩ | ⟨w, _, _, he⟩ | ⟨w, i, hf, hd, he⟩ := step_cases s <;> rw [he] at h
  · cases h
  · rw [(State.unknownOpcode_next w).mp h]
    rfl
  · have hi := State.nextInstr_of_fetch hf hd
    exact exec_pixel (fun hc => hcls (hc ▸ hi)) (fun a b n hc => hdrw a b n (hc ▸ hi)) h x y

/-- A step that fails leaves the whole state; of the other events only Reset and Step write pixels. -/
theorem Event.after_pixel {e : Event} (he : e ≠ .reset)
    (hstep : e = .step → s.nextInstr ≠ some .cls ∧ ∀ x y n, s.nextInstr ≠ some (.drw x y n))
    (x : Fin 64) (y : Fin 32) : (e.after s).pixel x y = s.pixel x y := by
  cases e with
  | reset => exact absurd rfl he
  | step =>
    obtain ⟨hcls, hdrw⟩ := hstep rfl
    obtain hnext | hsame := Event.step.after_cases s
    · exact step_pixel hcls hdrw hnext x y
    · rw [hsame]
  | load image =>
    rw [Event.after_load]
    split <;> rfl
  | tick | setKey => rfl

/-! ### Clearing -/

/-- Clearing a clear framebuffer changes nothing. -/
theorem State.setFb_clear_of_clear (h : ∀ x y, s.pixel x y = false) : s.setFb Framebuffer.clear = s := by
  have hfb : Framebuffer.clear = s.fb :=
    Framebuffer.ext_pixel fun x y => (Framebuffer.pixel_clear x y).trans (h x y).symm
  rw [hfb]
  rfl

/-- Settles O37: the end state of 00E0 is one write of the framebuffer, and every other row's frame keeps it. -/
theorem clearScreen : Obligations.ClearScreen := by
  refine ⟨selects_iff.mp (row_selects_encode .cls), fun s => ?_, fun i s t hcls hdrw h => exec_pixel hcls hdrw h,
    fun s => State.pixel_resetWith s.mem.font, fun e s he hstep => Event.after_pixel he hstep⟩
  refine ⟨_, exec_cls_eq, Framebuffer.pixel_clear, fun _ => rfl, rfl, fun hclear => ?_⟩
  rw [State.setFb_clear_of_clear hclear]

end Sys2Proof.Machine
end

section
/-!
SUPPORT. Timers counted down as numbers, the sound output, the key an operand selects, the byte of a key, the random
draws (rules R160 to R166, R191, R196), and what an instruction does whatever ST is.
-/

namespace Sys2Proof.Machine

variable {s t : State}

/-! ### The timers -/

/-- A timer stops at 0, as the subtraction of numbers does (rule R191). -/
@[simp] theorem countDown_toNat (b : Byte) : (countDown b).toNat = b.toNat - 1 := by
  unfold countDown
  split <;> bv_omega

theorem runEvents_replicate_tick_succ (k : Nat) (s : State) :
    runEvents (List.replicate (k + 1) Event.tick) s = runEvents (List.replicate k Event.tick) s.tick := rfl

/-- `k` ticks take `k` off each timer, down to 0. -/
theorem timers_after_ticks (k : Nat) (s : State) :
    (runEvents (List.replicate k Event.tick) s).dt.toNat = s.dt.toNat - k ∧
    (runEvents (List.replicate k Event.tick) s).st.toNat = s.st.toNat - k := by
  induction k generalizing s with
  | zero => exact ⟨rfl, rfl⟩
  | succ k ih =>
    obtain ⟨hdt, hst⟩ := ih s.tick
    rw [runEvents_replicate_tick_succ, hdt, hst, State.tick_dt, State.tick_st, countDown_toNat, countDown_toNat]
    omega

theorem State.soundOn_iff (s : State) : s.soundOn = true ↔ s.st ≠ 0 := bne_iff_ne

theorem State.soundOn_iff_toNat_pos (s : State) : s.soundOn = true ↔ 0 < s.st.toNat := by
  rw [State.soundOn_iff, BitVec.toNat_ne, Nat.pos_iff_ne_zero]
  rfl

/-! ### No instruction reads ST -/

/-- The load keeps ST and does not read it. -/
theorem State.loadRegs_update_st (s : State) (x : Reg) (b : Byte) :
    ({ s with st := b } : State).loadRegs x = { s.loadRegs x with st := b } := rfl

/-- Everything FX65 can answer. By rewriting: `cases` on the hypothesis would unfold the load of all sixteen
registers. -/
theorem exec_ldVxMem_next {x : Reg} (h : exec (.ldVxMem x) s = .next t) :
    t = { s.loadRegs x with pc := s.pc + 2, report := .ok } := by
  rw [exec_ldVxMem_eq, Host.Outcome.next.injEq] at h
  exact h.symm

/-- An instruction answers the same next state whatever ST is, its effect on ST apart. -/
theorem exec_next_st {i : Instr} (b : Byte) (h : exec i s = .next t) :
    ∃ u, exec i { s with st := b } = .next u ∧ { u with st := t.st } = t := by
  cases i with
  | ret =>
    obtain ⟨hsp, rfl⟩ := exec_ret_next h
    exact ⟨_, exec_ret_of_ne hsp, rfl⟩
  | call nnn =>
    obtain ⟨hsp, rfl⟩ := exec_call_next h
    exact ⟨_, exec_call_of_lt (s := { s with st := b }) nnn hsp, rfl⟩
  | ldVxK x =>
    obtain ⟨hno, rfl⟩ | ⟨k, hk, rfl⟩ := exec_ldVxK_next h
    · exact ⟨_, exec_ldVxK_wait x hno, rfl⟩
    · exact ⟨_, exec_ldVxK_of_lowest x k hk, rfl⟩
  | ldVxMem x =>
    obtain rfl := exec_ldVxMem_next h
    refine ⟨_, exec_ldVxMem_eq x, ?_⟩
    rw [State.loadRegs_update_st]
  | _ =>
    cases h
    exact ⟨_, rfl, rfl⟩

/-- The fatal errors of an instruction, and their payloads, depend on sp and pc alone (rules R182, R183). -/
theorem exec_fault_congr {i : Instr} {f : Fault} (hpc : t.pc = s.pc) (hsp : t.sp = s.sp)
    (h : exec i s = .fault f) : exec i t = .fault f := by
  cases i with
  | ret =>
    obtain ⟨hempty, he⟩ | ⟨_, he⟩ := exec_ret_cases s <;> rw [he] at h <;> cases h
    obtain ⟨_, ht⟩ | ⟨hne, _⟩ := exec_ret_cases t
    · rw [ht, hpc]
    · exact absurd (hsp.trans hempty) hne
  | call nnn =>
    obtain ⟨hfull, he⟩ | ⟨_, he⟩ := exec_call_cases nnn s <;> rw [he] at h <;> cases h
    obtain ⟨_, ht⟩ | ⟨hlt, _⟩ := exec_call_cases nnn t
    · rw [ht, hpc]
    · simp [hsp, hfull] at hlt
  | ldVxK x => obtain ⟨_, he⟩ | ⟨_, _, he⟩ := exec_ldVxK_cases x s <;> rw [he] at h <;> cases h
  | _ => cases h

/-! ### Keys -/

/-- The low nibble of V[X] is its remainder by 16 (decision D13). -/
theorem State.keyOf_eq {x : Reg} {k : KeyIndex} (h : k.val = (s.reg x).toNat % 16) : s.keyOf x = k :=
  Fin.ext ((BitVec.toNat_setWidth 4 (s.reg x)).trans h.symm)

@[simp] theorem keyByte_toNat (k : KeyIndex) : (keyByte k).toNat = k.val :=
  Nat.mod_eq_of_lt (Nat.lt_trans k.isLt (by decide))

/-! ### Random draws -/

theorem Frame.draws {w : Writes} (h : Frame w s t) (hw : w.draws = false) : t.draws = s.draws := by
  obtain ⟨_, _, _, _, _, _, _, _, _, hdraws⟩ := h
  exact hdraws hw

/-- Only the row of CXNN names the random source. -/
theorem writes_draws_eq_false {i : Instr} (hrnd : ∀ x nn, i ≠ .rnd x nn) : (writes i s).draws = false := by
  cases i with
  | rnd x nn => exact absurd rfl (hrnd x nn)
  | _ => rfl

end Sys2Proof.Machine
end

section
/-!
Random, keypad and timer instructions (45_io_timers_random.md): CXNN, EX9E, EXA1, FX0A, FX07, FX15 and FX18.
-/

namespace Sys2Proof.Machine

/-- Settles O42: each instruction is one write of a register or a timer, ticks subtract, and an answer at
another ST differs in ST alone. -/
theorem timerMoves : Obligations.TimerMoves := by
  intro x s
  refine ⟨selects_iff.mp (row_selects_encode (.ldVxDt x)), selects_iff.mp (row_selects_encode (.ldDtVx x)),
    selects_iff.mp (row_selects_encode (.ldStVx x)),
    ⟨_, exec_ldVxDt_eq x, s.reg_setReg_self x _, fun _ hr => s.reg_setReg_of_ne _ hr, rfl, rfl, rfl⟩,
    ⟨_, exec_ldDtVx_eq x, rfl, rfl, fun _ => rfl, rfl⟩,
    ⟨_, exec_ldStVx_eq x, rfl, rfl, fun _ => rfl, (s.setSt (s.reg x)).soundOn_iff, rfl⟩,
    fun k => ?_, s.soundOn_iff, fun i b => ⟨fun t => exec_next_st b, fun f => exec_fault_congr rfl rfl⟩⟩
  obtain ⟨hdt, hst⟩ := timers_after_ticks k s
  refine ⟨hdt, hst, ?_⟩
  rw [State.soundOn_iff_toNat_pos, hst, Nat.sub_pos_iff_lt]

/-- Settles O20: both end states are written out, with V[X] mod 16 the key their tests name. -/
theorem skipsOnKeys : Obligations.SkipsOnKeys := by
  intro x s k hk
  refine ⟨_, _, exec_skp_eq x, exec_sknp_eq x, ?_, ?_, fun _ => ⟨rfl, rfl⟩, fun _ => ⟨rfl, rfl⟩⟩
  · simp only [State.keyOf_eq hk]
  · simp only [State.keyOf_eq hk]
    cases s.key k <;> rfl

/-- Settles O40: CXNN counts one draw and writes one register; the frame of every other instruction keeps `draws`. -/
theorem randomUnderMask : Obligations.RandomUnderMask :=
  ⟨fun x nn s => ⟨_, exec_rnd_eq x nn, s.drawn.reg_setReg_self x _, fun _ hr => s.drawn.reg_setReg_of_ne _ hr,
    rfl, rfl⟩,
  fun i s t hrnd h => (frameOfEveryInstruction i s t h).draws (writes_draws_eq_false hrnd)⟩

/-- Settles O41: the least pressed key is the one FX0A finds, and its index fits a byte. -/
theorem waitForKey : Obligations.WaitForKey := by
  refine ⟨fun x s => exec_ldVxK_wait x, fun x s k hk hleast => ?_⟩
  refine ⟨_, exec_ldVxK_of_lowest x k ((s.lowestKey_eq_some k).mpr ⟨hk, hleast⟩), ?_,
    fun _ hr => s.reg_setReg_of_ne _ hr, fun _ => rfl, rfl, rfl⟩
  rw [State.reg_end, State.reg_setReg_self, keyByte_toNat]

end Sys2Proof.Machine
end

section
/-!
SUPPORT. An event that fails, a list of events some of which cannot occur, the errors of 00EE and 2NNN, the instruction
at pc, and the words of FX0A (rules R163, R181 to R185, R198).
-/

namespace Sys2Proof.Machine

variable {s t : State}

/-! ### Failing events and lists of events -/

/-- A fatal error leaves the state as it was (rules R181 to R183, R185, R188, decision D8). -/
theorem Event.after_of_fault {e : Event} {f : Fault} (h : e.apply s = .fault f) : e.after s = s := by
  simp only [Event.after, h]

/-- What every event of a list keeps, the list keeps. -/
theorem runEvents_keeps_of_mem {P : State → Prop} {es : List Event}
    (hP : ∀ e ∈ es, ∀ s, P s → P (Event.after e s)) (hs : P s) : P (runEvents es s) := by
  induction es generalizing s with
  | nil => exact hs
  | cons e es ih =>
    obtain ⟨he, hes⟩ := List.forall_mem_cons.mp hP
    exact ih hes (he s hs)

/-! ### The errors of 00EE and 2NNN (rules R182, R183) -/

theorem exec_ret_eq_fault_iff {f : Fault} : exec .ret s = .fault f ↔ s.sp = 0 ∧ f = .stackUnderflow s.pc := by
  obtain ⟨hempty, he⟩ | ⟨hne, he⟩ := exec_ret_cases s
  · simp [he, hempty, eq_comm]
  · simp [he, hne]

theorem exec_call_eq_fault_iff {nnn : BitVec 12} {f : Fault} :
    exec (.call nnn) s = .fault f ↔ s.sp = 16 ∧ f = .stackOverflow s.pc := by
  obtain ⟨hfull, he⟩ | ⟨hlt, he⟩ := exec_call_cases nnn s
  · simp [he, hfull, eq_comm]
  · have hne : s.sp ≠ 16 := fun hfull => absurd hlt (by simp [hfull])
    simp [he, hne]

/-- Calls that fit the free stack slots all succeed, and each takes one slot. -/
theorem callMany_of_fits {targets : List (BitVec 12)} (h : s.sp.val + targets.length ≤ 16) :
    ∃ t, callMany targets s = .next t ∧ t.sp.val = s.sp.val + targets.length := by
  induction targets generalizing s with
  | nil => exact ⟨s, rfl, rfl⟩
  | cons nnn rest ih =>
    rw [List.length_cons] at h ⊢
    have hne : s.sp ≠ 16 := fun hfull => by
      rw [hfull] at h
      exact absurd h (by simp)
    obtain ⟨u, hu, _, _, husp, _⟩ := callPushes nnn s hne
    obtain ⟨t, ht, htsp⟩ := ih (s := u) (by omega)
    refine ⟨t, ?_, by omega⟩
    rw [callMany, hu]
    exact ht

/-! ### The key wait (rules R163, R198) -/

theorem State.nextInstr_eq_some_iff {i : Instr} :
    s.nextInstr = some i ↔ s.pc.toNat + 1 ≤ 0xFFF ∧ decodeWord (s.mem.readWord s.pc.toNat) = some i := by
  simp only [State.nextInstr, Option.bind_eq_some_iff, State.fetch_eq_some]
  constructor
  · rintro ⟨_, ⟨hpc, rfl⟩, hd⟩
    exact ⟨hpc, hd⟩
  · rintro ⟨hpc, hd⟩
    exact ⟨_, ⟨hpc, rfl⟩, hd⟩

/-- The mask test of the accessor selects the row of FX0A, so it finds the words that decode to FX0A. -/
theorem and_mask_eq_F00A_iff {w : Word} : w &&& 0xF0FF = 0xF00A ↔ ∃ x, decodeWord w = some (.ldVxK x) := by
  constructor
  · intro h
    exact ⟨fieldX w, decodeWord_eq_some_iff.mpr (formatXF_of_fields (fields_of_selects_F0FF (selects_iff.mpr h)))⟩
  · rintro ⟨x, hd⟩
    exact selects_iff.mp (row_selects_of_decodeWord hd)

/-- The accessor is the condition of the key wait: FX0A at pc and no key pressed. -/
theorem State.waiting_iff : s.waiting = true ↔ (∃ x, s.nextInstr = some (.ldVxK x)) ∧ ∀ k, s.key k = false := by
  simp only [State.waiting, Bool.and_eq_true, decide_eq_true_eq, beq_iff_eq, and_mask_eq_F00A_iff, List.all_eq_true,
    List.mem_finRange, Bool.not_eq_true', forall_const, State.nextInstr_eq_some_iff, exists_and_left]

end Sys2Proof.Machine
end

section
/-!
Exceptions (60_exceptions.md rules R181 to R184): when each error of a step is raised, and what it leaves.
-/

namespace Sys2Proof.Machine

variable {s : State}

/-- Past the last fetch only Reset moves pc: a step fails, and no other event writes it (rule R181). -/
theorem Event.after_pc_of_past_end {e : Event} (he : e ≠ .reset) (h : s.pc.toNat + 1 > 0xFFF) :
    (e.after s).pc = s.pc := by
  cases e with
  | reset => exact absurd rfl he
  | step => rw [Event.after_of_fault (e := .step) (step_of_pc_past_end h)]
  | load image =>
    rw [Event.after_load]
    split <;> rfl
  | tick | setKey => rfl

/-- Settles O8: of the outcomes of a step only the fetch out of bounds carries the error, and pc stays past the end
until a Reset. -/
theorem invalidAddressExactly : Obligations.InvalidAddressExactly := by
  refine ⟨fun s a => ⟨fun h => ?_, fun ⟨hbound, ha⟩ => ha ▸ step_of_pc_past_end hbound⟩,
    fun s hbound => Event.after_of_fault (e := .step) (step_of_pc_past_end hbound), fun s es hbound hes => ?_,
    fun s => (by decide : (0x200 : Word).toNat + 1 ≤ 0xFFF)⟩
  · obtain ⟨_, _, he, _⟩ | ⟨he, _⟩ | ⟨_, _, _, he⟩ | ⟨he, hbound⟩ | ⟨he, _⟩ | ⟨he, _⟩ :=
      stepOutcomes s <;> rw [he] at h <;> cases h
    exact ⟨hbound, rfl⟩
  · have hpc : (runEvents es s).pc = s.pc := by
      refine runEvents_keeps_of_mem (P := fun u => u.pc = s.pc) (fun e he u hu => ?_) rfl
      rw [Event.after_pc_of_past_end (ne_of_mem_of_not_mem he hes) (hu ▸ hbound), hu]
    rw [← hpc] at hbound ⊢
    exact step_of_pc_past_end hbound

/-- Settles O9: of the outcomes of a step only the unrecognised word reports the error. -/
theorem unknownOpcodeAdvances : Obligations.UnknownOpcodeAdvances := by
  refine ⟨fun s w => step_of_unrecognised, fun s t a w h hr => ?_⟩
  obtain ⟨u, _, he, hok, _⟩ | ⟨he, _⟩ | ⟨_, hf, hd, he⟩ | ⟨he, _⟩ | ⟨he, _⟩ | ⟨he, _⟩ :=
    stepOutcomes s <;> rw [he] at h <;> cases h
  · rw [hok] at hr
    cases hr
  · cases hr
  · cases hr
    exact ⟨rfl, hf, hd⟩

/-- Settles O12: the step is 00EE, which fails exactly on the empty stack. -/
theorem stackUnderflowExactly : Obligations.StackUnderflowExactly := by
  refine ⟨fun s a => by rw [exec_ret_eq_fault_iff, Fault.stackUnderflow.injEq], fun s hi hsp => ?_⟩
  have hstep : step s = .fault (.stackUnderflow s.pc) :=
    (step_of_nextInstr hi).trans (exec_ret_eq_fault_iff.mpr ⟨hsp, rfl⟩)
  exact ⟨hstep, Event.after_of_fault (e := .step) hstep⟩

/-- Settles O13: the step is 2NNN, which fails exactly on the full stack, and sixteen calls fill the empty one. -/
theorem stackOverflowExactly : Obligations.StackOverflowExactly := by
  refine ⟨fun s nnn a => by rw [exec_call_eq_fault_iff, Fault.stackOverflow.injEq], fun s nnn hi hsp => ?_,
    fun s targets hsp hlen => ?_⟩
  · have hstep : step s = .fault (.stackOverflow s.pc) :=
      (step_of_nextInstr hi).trans (exec_call_eq_fault_iff.mpr ⟨hsp, rfl⟩)
    exact ⟨hstep, Event.after_of_fault (e := .step) hstep⟩
  · obtain ⟨t, ht, htsp⟩ := callMany_of_fits (s := s) (targets := targets) (by simp [hsp, hlen])
    have hfull : t.sp = 16 := Fin.ext (by simp [htsp, hsp, hlen])
    exact ⟨t, ht, hfull, fun nnn => exec_call_eq_fault_iff.mpr ⟨hfull, rfl⟩⟩

end Sys2Proof.Machine
end

section
/-!
The host's events and accessors (60_exceptions.md rules R185, R191 to R193, R197, R198).
-/

namespace Sys2Proof.Machine

variable {s t : State}

/-- Settles O43: both timers count down as numbers. -/
theorem tickCountsDown : Obligations.TickCountsDown := by
  intro s
  refine ⟨s.tick, rfl, fun _ => countDown_toNat s.dt, fun hdt => ?_, fun _ => countDown_toNat s.st, fun hst => ?_, rfl⟩
  · rw [State.tick_dt, countDown_toNat, hdt]
  · rw [State.tick_st, countDown_toNat, hst]

/-- Settles O44: one key is written. -/
theorem setKeyWritesOneKey : Obligations.SetKeyWritesOneKey := by
  intro k p s
  refine ⟨s.setKey k p, rfl, ?_, fun j hj => ?_, rfl⟩
  · rw [State.key_setKey, if_pos rfl]
  · rw [State.key_setKey, if_neg hj]

/-! ### Load (rules R185, R197) -/

theorem Memory.read_writeBytes_inside (m : Memory) (a : Nat) {bs : List Byte} {k : Nat} (h : k < bs.length) :
    (m.writeBytes a bs).read (a + k) = bs[k] := by
  simp [Memory.read_writeBytes, h]

theorem Memory.read_writeBytes_outside (m : Memory) {a b : Nat} {bs : List Byte} (h : b < a ∨ a + bs.length ≤ b) :
    (m.writeBytes a bs).read b = m.read b := by
  rw [Memory.read_writeBytes, dif_neg (by omega)]

/-- Settles O45: the two cases of Load are the two sides of the bound, and the bytes written read back. -/
theorem loadCopiesImage : Obligations.LoadCopiesImage := by
  intro image s
  obtain ⟨hlen, he⟩ | ⟨hlen, he⟩ := State.load_cases (s := s) image
  · refine ⟨fun hlong => absurd hlen (Nat.not_le.mpr hlong), fun _ => ⟨_, he, ?_, ?_, rfl, fun hword hpc => ?_⟩⟩
    · exact fun k hk => s.mem.read_writeBytes_inside _ hk
    · exact fun a ha => s.mem.read_writeBytes_outside ha
    · have hhigh := s.mem.read_writeBytes_inside Config.progBase (Nat.zero_lt_of_lt hword)
      have hlow := s.mem.read_writeBytes_inside Config.progBase hword
      refine (State.fetch_eq_some _).mpr ?_
      rw [hpc]
      exact ⟨by decide, congrArg₂ (· ++ ·) hhigh hlow⟩
  · exact ⟨fun _ => ⟨he, Event.after_of_fault (e := .load image) he⟩, fun hle => absurd hle (Nat.not_le.mpr hlen)⟩

/-! ### Tick and Step (rule R192) -/

/-- An instruction that touches no timer lets both count down, before it or after it. -/
theorem exec_tick {i : Instr} (hi : usesTimer i = false) (h : exec i s = .next t) :
    exec i s.tick = .next t.tick := by
  cases i with
  | ldVxDt | ldDtVx | ldStVx => cases hi
  | ret =>
    obtain ⟨hsp, rfl⟩ := exec_ret_next h
    exact exec_ret_of_ne (s := s.tick) hsp
  | call nnn =>
    obtain ⟨hsp, rfl⟩ := exec_call_next h
    exact exec_call_of_lt (s := s.tick) nnn hsp
  | ldVxK x =>
    obtain ⟨hno, rfl⟩ | ⟨k, hk, rfl⟩ := exec_ldVxK_next h
    · exact exec_ldVxK_wait (s := s.tick) x hno
    · exact exec_ldVxK_of_lowest (s := s.tick) x k hk
  | ldVxMem x =>
    obtain rfl := exec_ldVxMem_next h
    exact exec_ldVxMem_eq (s := s.tick) x
  | _ =>
    cases h
    rfl

/-- Settles O52: a tick keeps pc, memory and sp, so the same instruction runs, or the step fails alike. -/
theorem tickAndStepCommute : Obligations.TickAndStepCommute := by
  intro s hi
  refine ⟨fun t h => ?_, fun f => step_fault_congr s.tick_pc s.tick_mem s.tick_sp⟩
  obtain ⟨_, ht, rfl⟩ := step_next_of_exec_next (R := fun s' t' => t' = s'.tick) s.tick_pc s.tick_mem
    (fun _ => rfl) (fun i _ hn h' => ⟨_, exec_tick (hi i hn) h', rfl⟩) t h
  exact ht

/-! ### The key-wait accessor (rule R198) -/

theorem step_of_waiting (h : s.waiting = true) : step s = .next { s with report := .waitingForKey } := by
  obtain ⟨⟨x, hi⟩, hno⟩ := State.waiting_iff.mp h
  exact (step_of_nextInstr hi).trans (exec_ldVxK_wait x hno)

/-- Settles O55: of the outcomes of a step only the key wait reports WaitingForKey, and its condition is the
accessor's. -/
theorem waitingAccessor : Obligations.WaitingAccessor := by
  refine ⟨fun s => ⟨fun h => ⟨_, step_of_waiting h, rfl⟩, fun ⟨t, h, hr⟩ => ?_⟩, fun s => step_of_waiting⟩
  obtain ⟨u, _, he, hok, _⟩ | ⟨he, hwait⟩ | ⟨_, _, _, he⟩ | ⟨he, _⟩ | ⟨he, _⟩ | ⟨he, _⟩ :=
    stepOutcomes s <;> rw [he] at h <;> cases h
  · rw [hok] at hr
    cases hr
  · exact State.waiting_iff.mpr hwait
  · cases hr

end Sys2Proof.Machine
end

section
/-!
The end of a run (70_reset_and_hazards.md rule R217): the jump to itself.
-/

namespace Sys2Proof.Machine

variable {s : State}

/-- `quiescent` reads the instruction at pc, and its operand is the low 12 bits of pc. -/
theorem State.quiescent_iff_nextInstr : s.quiescent = true ↔ s.nextInstr = some (.jp (s.pc.setWidth 12)) := by
  unfold State.quiescent State.nextInstr
  cases s.fetch with
  | none => simp
  | some w => simp

/-- An instruction was fetched only at a pc below 0xFFF, which the 12 bits of NNN hold whole (rules R53, R73). -/
theorem State.pc_setWidth_toNat_of_nextInstr {i : Instr} (h : s.nextInstr = some i) :
    (s.pc.setWidth 12).toNat = s.pc.toNat := by
  obtain ⟨hpc, _⟩ := State.nextInstr_eq_some_iff.mp h
  rw [BitVec.toNat_setWidth, Nat.mod_eq_of_lt (by omega)]

/-- The accessor finds exactly the jumps to the pc they stand at. -/
theorem State.quiescent_iff : s.quiescent = true ↔ ∃ nnn, s.nextInstr = some (.jp nnn) ∧ nnn.toNat = s.pc.toNat := by
  rw [State.quiescent_iff_nextInstr]
  constructor
  · exact fun h => ⟨_, h, State.pc_setWidth_toNat_of_nextInstr h⟩
  · rintro ⟨nnn, h, hself⟩
    have hnnn : nnn = s.pc.setWidth 12 :=
      BitVec.eq_of_toNat_eq (hself.trans (State.pc_setWidth_toNat_of_nextInstr h).symm)
    rwa [← hnnn]

/-- A jump to itself writes to pc what stands there (rule R101). -/
theorem exec_jp_self {nnn : BitVec 12} (hself : nnn.toNat = s.pc.toNat) :
    exec (.jp nnn) s = .next { s with report := .ok } := by
  have hpc : addrOf nnn = s.pc := BitVec.eq_of_toNat_eq ((addrOf_toNat nnn).trans hself)
  rw [exec_jp_eq, hpc]

/-- Settles O56: the step at a quiescent state is the jump to itself. -/
theorem quiescentStateStays : Obligations.QuiescentStateStays := by
  refine ⟨fun s => State.quiescent_iff, fun s h => ?_⟩
  obtain ⟨nnn, hi, hself⟩ := State.quiescent_iff.mp h
  exact (step_of_nextInstr hi).trans (exec_jp_self hself)

end Sys2Proof.Machine
end
